-- ==== Sys2Proof/Word.lean ====
section
/-! DEFINITION. The two word types of the block (R8): a byte and an unsigned 16-bit value. Everything a byte-order or
bit-slice rule says about them is in Machine/Operands.lean. -/

namespace Sys2Proof

/-- An unsigned 8-bit value (R8). -/
abbrev Byte := BitVec 8

/-- An unsigned 16-bit value (R8). -/
abbrev U16 := BitVec 16

end Sys2Proof
end

