-- ==== Sys2Proof/Machine/Constants.lean ====
section
/-! DEFINITION. The constants the source fixes (`00_scope.md` R6). -/

namespace Sys2Proof.Machine

/-- `CRC_INIT`: the start value of the checksum state (R6, R72). -/
def crcStart : U16 := 0xFFFF

/-- `CSUM_BYTES`: the width in bytes of the trailing checksum field (R6). -/
def csumBytes : Nat := 2

/-- `EXC_LEN`: the length of the exception shape (R6). -/
def excLen : Nat := 5

/-- `EXC_BIT`: the high bit of the function-code byte (R6, R55). -/
def excBit : Byte := 0x80

/-- `FC_MASK`: the mask that gives the original function code (R6, R52). -/
def fcMask : Byte := 0x7F

end Sys2Proof.Machine
end

