-- ==== Sys2Proof/Machine/Operands.lean ====
section
/-! DEFINITION. Operand forms: the bit slices of a 16-bit value (R9), the two byte orders (R10, R33, R34), the read of a
byte sequence by offset (R11, R32). A read answers `none` where R8 leaves it undefined (past the end of the sequence); no
rule of the block performs such a read (R32). -/

namespace Sys2Proof.Machine

/-- `c[7:0]` (R9). -/
def lowByte (c : U16) : Byte := c.extractLsb' 0 8

/-- `c[15:8]` (R9). -/
def highByte (c : U16) : Byte := c.extractLsb' 8 8

/-- `{h, l} = h*256 + l` (R9). -/
def pack (h l : Byte) : U16 := h ++ l

/-- `MemRead(off, n) = b[off : off+n)`, defined only when `off + n <= len(b)` (R11, R32). -/
def memRead (b : List Byte) (off n : Nat) : Option (List Byte) :=
  if off + n ≤ b.length then some ((b.drop off).take n) else none

/-- `be16(b, o) = b[o]*256 + b[o+1]` (R10): the order of every body field (R34). -/
def be16At (b : List Byte) (o : Nat) : Option U16 := do
  let h ← b[o]?
  let l ← b[o + 1]?
  some (pack h l)

/-- `le16(b, o) = b[o] + b[o+1]*256` (R10): the order of the checksum field (R33). -/
def le16At (b : List Byte) (o : Nat) : Option U16 := do
  let l ← b[o]?
  let h ← b[o + 1]?
  some (pack h l)

/-- The two wire bytes of a big-endian field, high byte at the lower offset (R34). -/
def be16Bytes (v : U16) : List Byte := [highByte v, lowByte v]

/-- The two wire bytes of the checksum field, low byte first (R33, R78). -/
def le16Bytes (v : U16) : List Byte := [lowByte v, highByte v]

end Sys2Proof.Machine
end

