-- ==== Sys2Proof/Machine/Event.lean ====
section
/-! DEFINITION. The events of the block (`43_noise_and_events.md` R151 to R155) and the wire bytes of an event (R160). -/

namespace Sys2Proof.Machine

/-- The fields a Request or Response carries (R152, R153): every body field of the matched shape, none interpreted. -/
inductive Fields where
  /-- `addr16`, `qty16` (format F8_AQ). -/
  | addrQty (addr qty : U16)
  /-- `addr16`, `data16` (format F8_AD). -/
  | addrData (addr data : U16)
  /-- `addr16` alone (format F6_A). -/
  | addrOnly (addr : U16)
  /-- `count8`, `data[count]` (format V3). -/
  | payload (count : Byte) (data : List Byte)
  /-- `addr16`, `qty16`, `count8`, `data[count]` (format V7). -/
  | addrQtyPayload (addr qty : U16) (count : Byte) (data : List Byte)
  /-- `raddr16`, `rqty16`, `waddr16`, `wqty16`, `count8`, `wdata[count]` (format V11). -/
  | readWrite (raddr rqty waddr wqty : U16) (count : Byte) (wdata : List Byte)
deriving DecidableEq, Repr

/-- The source's DecodedFrame (R151): the three kinds of frame event. The checksum is not part of one. -/
inductive DecodedFrame where
  | request (unit fc : Byte) (fields : Fields)
  | response (unit fc : Byte) (fields : Fields)
  /-- R154: the raw function-code byte is not carried. -/
  | exception (unit originalFc code : Byte)
deriving DecidableEq, Repr

/-- An event of the output stream (R151). -/
inductive Event where
  | frame (f : DecodedFrame)
  /-- The closed noise run, "a single 'ignored bytes' event" (R155). -/
  | noiseRun (bytes : List Byte)
deriving DecidableEq, Repr

/-- The fields laid out in the order of their format, 16-bit fields high byte first, the count before the payload
(R160, R51). -/
def Fields.bytes : Fields → List Byte
  | .addrQty addr qty => be16Bytes addr ++ be16Bytes qty
  | .addrData addr data => be16Bytes addr ++ be16Bytes data
  | .addrOnly addr => be16Bytes addr
  | .payload count data => count :: data
  | .addrQtyPayload addr qty count data => be16Bytes addr ++ be16Bytes qty ++ count :: data
  | .readWrite raddr rqty waddr wqty count wdata =>
    be16Bytes raddr ++ be16Bytes rqty ++ be16Bytes waddr ++ be16Bytes wqty ++ count :: wdata

/-- The body of a frame event: everything but its checksum (R160). -/
def DecodedFrame.body : DecodedFrame → List Byte
  | .request unit fc fields => unit :: fc :: fields.bytes
  | .response unit fc fields => unit :: fc :: fields.bytes
  | .exception unit originalFc code => [unit, originalFc ||| excBit, code]

/-- `bytes(ev)` (R160): the wire bytes an event was decoded from. -/
def Event.wireBytes : Event → List Byte
  | .frame f => Machine.frame f.body
  | .noiseRun q => q

/-- The payload a field list carries has the length its count says (R152, R153). -/
def Fields.wf : Fields → Bool
  | .payload count data => data.length == count.toNat
  | .addrQtyPayload _ _ count data => data.length == count.toNat
  | .readWrite _ _ _ _ count wdata => wdata.length == count.toNat
  | .addrQty _ _ => true
  | .addrData _ _ => true
  | .addrOnly _ => true

/-- Which fields a Request of each function code carries (the table of R152). -/
def Fields.fitRequest (fc : Byte) : Fields → Bool
  | .addrQty _ _ => fc == 0x01 || fc == 0x02 || fc == 0x03 || fc == 0x04
  | .addrData _ _ => fc == 0x05 || fc == 0x06
  | .addrOnly _ => false
  | .payload _ _ => false
  | .addrQtyPayload _ _ _ _ => fc == 0x0F || fc == 0x10
  | .readWrite _ _ _ _ _ _ => fc == 0x17

/-- Which fields a Response of each function code carries (the table of R153). -/
def Fields.fitResponse (fc : Byte) : Fields → Bool
  | .addrQty _ _ => fc == 0x0F || fc == 0x10
  | .addrData _ _ => fc == 0x06
  | .addrOnly _ => fc == 0x05
  | .payload _ _ => fc == 0x01 || fc == 0x02 || fc == 0x03 || fc == 0x04 || fc == 0x17
  | .addrQtyPayload _ _ _ _ => false
  | .readWrite _ _ _ _ _ _ => false

/-- A frame event as R151 to R153 type it: the fields of its kind and function code, payloads of their count's length, an
original function code of 0 to 127. -/
def DecodedFrame.wf : DecodedFrame → Bool
  | .request _ fc fields => fields.fitRequest fc && fields.wf
  | .response _ fc fields => fields.fitResponse fc && fields.wf
  | .exception _ originalFc _ => originalFc &&& excBit == 0

end Sys2Proof.Machine
end

