-- ==== Sys2Proof/Machine/Catalog.lean ====
section
/-! DEFINITION. The frame shape catalog (`41_shape_catalog.md`): the seven formats with their layouts (R51, R91), the nineteen
shapes (R92 to R110), the lookup by function code (R90), the length resolution `need` (R91). -/

namespace Sys2Proof.Machine

/-- A shape descriptor (R91). -/
inductive Layout where
  /-- A constant total length. -/
  | fixed (len : Nat)
  /-- A one-byte count field at `countOff`, the last byte of a prefix of `pre` bytes. -/
  | counted (countOff pre : Nat)
deriving DecidableEq, Repr

/-- The seven formats (R51). -/
inductive Format where
  | f8AQ
  | f8AD
  | f6A
  | e5
  | v3
  | v7
  | v11
deriving DecidableEq, Repr

/-- The descriptor of each format (R51, R91). -/
def Format.layout : Format → Layout
  | .f8AQ => .fixed 8
  | .f8AD => .fixed 8
  | .f6A => .fixed 6
  | .e5 => .fixed excLen
  | .v3 => .counted 2 3
  | .v7 => .counted 6 7
  | .v11 => .counted 10 11

/-- The nineteen shapes (R53). -/
inductive Shape where
  | fc01Req
  | fc01Rsp
  | fc02Req
  | fc02Rsp
  | fc03Req
  | fc03Rsp
  | fc04Req
  | fc04Rsp
  | fc05Req
  | fc05Rsp
  | fc06Req
  | fc06Rsp
  | fc15Req
  | fc15Rsp
  | fc16Req
  | fc16Rsp
  | fc23Req
  | fc23Rsp
  | exc
deriving DecidableEq, Repr

/-- The format of each shape (R53, R92 to R110). -/
def Shape.format : Shape → Format
  | .fc01Req => .f8AQ
  | .fc01Rsp => .v3
  | .fc02Req => .f8AQ
  | .fc02Rsp => .v3
  | .fc03Req => .f8AQ
  | .fc03Rsp => .v3
  | .fc04Req => .f8AQ
  | .fc04Rsp => .v3
  | .fc05Req => .f8AD
  | .fc05Rsp => .f6A
  | .fc06Req => .f8AD
  | .fc06Rsp => .f8AD
  | .fc15Req => .v7
  | .fc15Rsp => .f8AQ
  | .fc16Req => .v7
  | .fc16Rsp => .f8AQ
  | .fc23Req => .v11
  | .fc23Rsp => .v3
  | .exc => .e5

/-- The descriptor of a shape. -/
def Shape.layout (sh : Shape) : Layout := sh.format.layout

/-- `lookup(fc)` (R90): the request and the response shape of a catalogued code, `none` for an unknown one. -/
def lookup (fc : Byte) : Option (Shape × Shape) :=
  if fc = 0x01 then some (.fc01Req, .fc01Rsp)
  else if fc = 0x02 then some (.fc02Req, .fc02Rsp)
  else if fc = 0x03 then some (.fc03Req, .fc03Rsp)
  else if fc = 0x04 then some (.fc04Req, .fc04Rsp)
  else if fc = 0x05 then some (.fc05Req, .fc05Rsp)
  else if fc = 0x06 then some (.fc06Req, .fc06Rsp)
  else if fc = 0x0F then some (.fc15Req, .fc15Rsp)
  else if fc = 0x10 then some (.fc16Req, .fc16Rsp)
  else if fc = 0x17 then some (.fc23Req, .fc23Rsp)
  else none

/-- Bit 7 of the function-code byte: the single generic exception test (R55, R58). -/
def isException (fc : Byte) : Bool := fc &&& excBit != 0

/-- A function code with bit 7 clear and no catalog entry (R56): one of 119 values. -/
def isUnknown (fc : Byte) : Bool := !isException fc && (lookup fc).isNone

/-- Which function-code bytes select a shape: the match and mask of its row in the opcode table (R53, R55). -/
def Shape.selectedBy (sh : Shape) (fc : Byte) : Bool :=
  match sh with
  | .fc01Req => fc == 0x01
  | .fc01Rsp => fc == 0x01
  | .fc02Req => fc == 0x02
  | .fc02Rsp => fc == 0x02
  | .fc03Req => fc == 0x03
  | .fc03Rsp => fc == 0x03
  | .fc04Req => fc == 0x04
  | .fc04Rsp => fc == 0x04
  | .fc05Req => fc == 0x05
  | .fc05Rsp => fc == 0x05
  | .fc06Req => fc == 0x06
  | .fc06Rsp => fc == 0x06
  | .fc15Req => fc == 0x0F
  | .fc15Rsp => fc == 0x0F
  | .fc16Req => fc == 0x10
  | .fc16Rsp => fc == 0x10
  | .fc23Req => fc == 0x17
  | .fc23Rsp => fc == 0x17
  | .exc => isException fc

/-- The request shape that is tried before a response shape (R126, R127); none for a request or the exception shape. -/
def Shape.requestOf : Shape → Option Shape
  | .fc01Rsp => some .fc01Req
  | .fc02Rsp => some .fc02Req
  | .fc03Rsp => some .fc03Req
  | .fc04Rsp => some .fc04Req
  | .fc05Rsp => some .fc05Req
  | .fc06Rsp => some .fc06Req
  | .fc15Rsp => some .fc15Req
  | .fc16Rsp => some .fc16Req
  | .fc23Rsp => some .fc23Req
  | .fc01Req => none
  | .fc02Req => none
  | .fc03Req => none
  | .fc04Req => none
  | .fc05Req => none
  | .fc06Req => none
  | .fc15Req => none
  | .fc16Req => none
  | .fc23Req => none
  | .exc => none

/-- `need(shape, b)` (R91): the resolved total length, or `none` for INSUFFICIENT. A variable layout first waits for its
count byte, then for the length it gives. -/
def need (l : Layout) (b : List Byte) : Option Nat :=
  match l with
  | .fixed len => if len ≤ b.length then some len else none
  | .counted countOff pre =>
    match b[countOff]? with
    | none => none
    | some count =>
      let len := pre + count.toNat + csumBytes
      if len ≤ b.length then some len else none

end Sys2Proof.Machine
end

