-- ==== Sys2Proof/Syntax.lean ====
section
/-! DEFINITION. The instructions: one constructor per row of `spec/opcode_table.json`. The eighteen shapes and the exception
shape carry the fields of their format (R51) without the checksum, which the other bytes determine; the operations carry
the operands of their rules. -/

namespace Sys2Proof

/-- One constructor per row of the opcode table, in the table's order. -/
inductive Instr where
  /-- FC01_REQ (R92), format F8_AQ. -/
  | fc01Req (unit : Byte) (addr qty : U16)
  /-- FC01_RSP (R93), format V3. -/
  | fc01Rsp (unit count : Byte) (data : List Byte)
  /-- FC02_REQ (R94), format F8_AQ. -/
  | fc02Req (unit : Byte) (addr qty : U16)
  /-- FC02_RSP (R95), format V3. -/
  | fc02Rsp (unit count : Byte) (data : List Byte)
  /-- FC03_REQ (R96), format F8_AQ. -/
  | fc03Req (unit : Byte) (addr qty : U16)
  /-- FC03_RSP (R97), format V3. -/
  | fc03Rsp (unit count : Byte) (data : List Byte)
  /-- FC04_REQ (R98), format F8_AQ. -/
  | fc04Req (unit : Byte) (addr qty : U16)
  /-- FC04_RSP (R99), format V3. -/
  | fc04Rsp (unit count : Byte) (data : List Byte)
  /-- FC05_REQ (R100), format F8_AD. -/
  | fc05Req (unit : Byte) (addr data : U16)
  /-- FC05_RSP (R101), format F6_A. -/
  | fc05Rsp (unit : Byte) (addr : U16)
  /-- FC06_REQ (R102), format F8_AD. -/
  | fc06Req (unit : Byte) (addr data : U16)
  /-- FC06_RSP (R103), format F8_AD; no byte sequence decodes to it (R112 (a)). -/
  | fc06Rsp (unit : Byte) (addr data : U16)
  /-- FC15_REQ (R104), format V7. -/
  | fc15Req (unit : Byte) (addr qty : U16) (count : Byte) (data : List Byte)
  /-- FC15_RSP (R105), format F8_AQ. -/
  | fc15Rsp (unit : Byte) (addr qty : U16)
  /-- FC16_REQ (R106), format V7. -/
  | fc16Req (unit : Byte) (addr qty : U16) (count : Byte) (data : List Byte)
  /-- FC16_RSP (R107), format F8_AQ. -/
  | fc16Rsp (unit : Byte) (addr qty : U16)
  /-- FC23_REQ (R108), format V11. -/
  | fc23Req (unit : Byte) (raddr rqty waddr wqty : U16) (count : Byte) (wdata : List Byte)
  /-- FC23_RSP (R109), format V3. -/
  | fc23Rsp (unit count : Byte) (data : List Byte)
  /-- EXC (R110), format E5; `fc` is the raw function-code byte, bit 7 set. -/
  | exc (unit fc code : Byte)
  /-- UNKNOWN_FC (R56): the front byte and the unknown function code behind it. -/
  | unknownFc (unit fc : Byte)
  /-- CHECKSUM(bytes, length) (R73). -/
  | checksum (bytes : List Byte) (length : Nat)
  /-- CRC_INIT (R72). -/
  | crcInit
  /-- CRC_UPDATE(b) (R76). -/
  | crcUpdate (b : Byte)
  /-- CRC_CHECK(L) (R77). -/
  | crcCheck (len : Nat)
  /-- INGEST(chunk) (R120). -/
  | ingest (chunk : List Byte)
  /-- DRAIN (R121). -/
  | drain
  /-- STEP (R122). -/
  | step
  /-- NOISE_STEP (R156). -/
  | noiseStep
  /-- EMIT_FRAME(L, ev) (R157). -/
  | emitFrame (len : Nat) (ev : Machine.DecodedFrame)
deriving DecidableEq, Repr

end Sys2Proof
end

