-- ==== Sys2Proof/Decode.lean ====
section
/-! DEFINITION. The decoder: what the front of `BUF` is (`42_reassembler.md` R122 to R129 read as a function of the bytes
alone, which R132 and R135 say it is), and after it the encoder (`30_encoding.md` R51, R60). The decode position is always the
front of `BUF` (R14). Decoding is total: it answers a frame, one noise byte, or a named reason to wait. -/

namespace Sys2Proof

open Machine

/-! ### Field extraction, one reader per format (R51, R52) -/

/-- Format F8_AQ: unit, addr16, qty16. -/
def readAQ (b : List Byte) : Option (Byte × U16 × U16) := do
  let unit ← b[0]?
  let addr ← be16At b 2
  let qty ← be16At b 4
  some (unit, addr, qty)

/-- Format F8_AD: unit, addr16, data16. -/
def readAD (b : List Byte) : Option (Byte × U16 × U16) := do
  let unit ← b[0]?
  let addr ← be16At b 2
  let data ← be16At b 4
  some (unit, addr, data)

/-- Format F6_A: unit, addr16. -/
def readA (b : List Byte) : Option (Byte × U16) := do
  let unit ← b[0]?
  let addr ← be16At b 2
  some (unit, addr)

/-- Format E5: unit, fc, exception_code8. -/
def readE5 (b : List Byte) : Option (Byte × Byte × Byte) := do
  let unit ← b[0]?
  let fc ← b[1]?
  let code ← b[2]?
  some (unit, fc, code)

/-- Format V3: unit, count8, data[count]. -/
def readV3 (b : List Byte) : Option (Byte × Byte × List Byte) := do
  let unit ← b[0]?
  let count ← b[2]?
  let data ← memRead b 3 count.toNat
  some (unit, count, data)

/-- Format V7: unit, addr16, qty16, count8, data[count]. -/
def readV7 (b : List Byte) : Option (Byte × U16 × U16 × Byte × List Byte) := do
  let unit ← b[0]?
  let addr ← be16At b 2
  let qty ← be16At b 4
  let count ← b[6]?
  let data ← memRead b 7 count.toNat
  some (unit, addr, qty, count, data)

/-- Format V11: unit, raddr16, rqty16, waddr16, wqty16, count8, wdata[count]. -/
def readV11 (b : List Byte) : Option (Byte × U16 × U16 × U16 × U16 × Byte × List Byte) := do
  let unit ← b[0]?
  let raddr ← be16At b 2
  let rqty ← be16At b 4
  let waddr ← be16At b 6
  let wqty ← be16At b 8
  let count ← b[10]?
  let wdata ← memRead b 11 count.toNat
  some (unit, raddr, rqty, waddr, wqty, count, wdata)

/-- The instruction a matched shape stands for, its fields read from the front of the bytes (R92 to R110). -/
def buildFrame (sh : Shape) (b : List Byte) : Option Instr :=
  match sh with
  | .fc01Req => (readAQ b).map fun (unit, addr, qty) => .fc01Req unit addr qty
  | .fc01Rsp => (readV3 b).map fun (unit, count, data) => .fc01Rsp unit count data
  | .fc02Req => (readAQ b).map fun (unit, addr, qty) => .fc02Req unit addr qty
  | .fc02Rsp => (readV3 b).map fun (unit, count, data) => .fc02Rsp unit count data
  | .fc03Req => (readAQ b).map fun (unit, addr, qty) => .fc03Req unit addr qty
  | .fc03Rsp => (readV3 b).map fun (unit, count, data) => .fc03Rsp unit count data
  | .fc04Req => (readAQ b).map fun (unit, addr, qty) => .fc04Req unit addr qty
  | .fc04Rsp => (readV3 b).map fun (unit, count, data) => .fc04Rsp unit count data
  | .fc05Req => (readAD b).map fun (unit, addr, data) => .fc05Req unit addr data
  | .fc05Rsp => (readA b).map fun (unit, addr) => .fc05Rsp unit addr
  | .fc06Req => (readAD b).map fun (unit, addr, data) => .fc06Req unit addr data
  | .fc06Rsp => (readAD b).map fun (unit, addr, data) => .fc06Rsp unit addr data
  | .fc15Req => (readV7 b).map fun (unit, addr, qty, count, data) => .fc15Req unit addr qty count data
  | .fc15Rsp => (readAQ b).map fun (unit, addr, qty) => .fc15Rsp unit addr qty
  | .fc16Req => (readV7 b).map fun (unit, addr, qty, count, data) => .fc16Req unit addr qty count data
  | .fc16Rsp => (readAQ b).map fun (unit, addr, qty) => .fc16Rsp unit addr qty
  | .fc23Req =>
    (readV11 b).map fun (unit, raddr, rqty, waddr, wqty, count, wdata) => .fc23Req unit raddr rqty waddr wqty count wdata
  | .fc23Rsp => (readV3 b).map fun (unit, count, data) => .fc23Rsp unit count data
  | .exc => (readE5 b).map fun (unit, fc, code) => .exc unit fc code

/-! ### The shape test and the verdict at the front of `BUF` -/

/-- The three outcomes of `try_shape` (R111). -/
inductive Attempt where
  | insufficient
  | mismatch
  | matched (len : Nat) (i : Instr)
deriving DecidableEq, Repr

/-- `try_shape(shape, b)` (R111). Fields are read only on a match, and then they are all there
(`Laws.tryShape_insufficient_iff`): the last `none` never occurs. -/
def tryShape (sh : Shape) (b : List Byte) : Attempt :=
  match need sh.layout b with
  | none => .insufficient
  | some len =>
    if crcMatches b len then
      match buildFrame sh b with
      | some i => .matched len i
      | none => .insufficient
    else .mismatch

/-- The four places where a step waits for more bytes (R171). -/
inductive Wait where
  /-- Fewer than 3 bytes (R123). -/
  | header
  /-- Bit 7 set and fewer than 5 bytes (R124). -/
  | exceptionShape
  /-- The request shape's count byte or length is not there yet (R126). -/
  | requestShape
  /-- The request mismatched and the response shape's length is not there yet (R127). -/
  | responseShape
deriving DecidableEq, Repr

/-- The verdict of one step at the front of `BUF` (R122): its three outcomes, with the instruction that gives the effect. -/
inductive Front where
  /-- NEED_MORE: nothing is decided; the reason is the model's name for the place (R171). -/
  | needMore (why : Wait)
  /-- NOISE_BYTE: one byte falls to the noise step, run as UNKNOWN_FC or as NOISE_STEP. -/
  | noiseByte (i : Instr)
  /-- FRAME: a frame of `len` bytes was recognised. -/
  | frame (len : Nat) (i : Instr)
deriving DecidableEq, Repr

/-- The verdict at the front of the bytes `b`: R122 branch by branch, in the order that is normative (R176). -/
def decode (b : List Byte) : Front :=
  match b with
  | unit :: fc :: _ :: _ =>
    if isException fc then
      match tryShape .exc b with
      | .insufficient => .needMore .exceptionShape
      | .matched len i => .frame len i
      | .mismatch => .noiseByte .noiseStep
    else
      match lookup fc with
      | none => .noiseByte (.unknownFc unit fc)
      | some (req, rsp) =>
        match tryShape req b with
        | .insufficient => .needMore .requestShape
        | .matched len i => .frame len i
        | .mismatch =>
          match tryShape rsp b with
          | .insufficient => .needMore .responseShape
          | .matched len i => .frame len i
          | .mismatch => .noiseByte .noiseStep
  | _ => .needMore .header

/-- The instruction of a verdict, if it is not NEED_MORE. -/
def Front.instr? : Front → Option Instr
  | .needMore _ => none
  | .noiseByte i => some i
  | .frame _ i => some i

/-- The verdict is NEED_MORE: the loop has nothing to do (R131). -/
def Front.waits : Front → Bool
  | .needMore _ => true
  | .noiseByte _ => false
  | .frame _ _ => false

/-! ### The encoder -/

/-- Body of formats F8_AQ and F8_AD: unit, fc and two 16-bit fields (R51). -/
def bodyTwo (unit fc : Byte) (x y : U16) : List Byte := unit :: fc :: (be16Bytes x ++ be16Bytes y)

/-- Body of format V3 (R51). -/
def bodyV3 (unit fc count : Byte) (data : List Byte) : List Byte := unit :: fc :: count :: data

/-- Body of format V7 (R51). -/
def bodyV7 (unit fc : Byte) (addr qty : U16) (count : Byte) (data : List Byte) : List Byte :=
  unit :: fc :: (be16Bytes addr ++ be16Bytes qty ++ count :: data)

/-- Body of format V11 (R51). -/
def bodyV11 (unit fc : Byte) (raddr rqty waddr wqty : U16) (count : Byte) (wdata : List Byte) : List Byte :=
  unit :: fc :: (be16Bytes raddr ++ be16Bytes rqty ++ be16Bytes waddr ++ be16Bytes wqty ++ count :: wdata)

/-- The body of a frame instruction: its bytes without the checksum, fields in wire order (R51). UNKNOWN_FC is a class of codes
with no pattern of its own (R56) and the operations have no encoding (R61): `none`. -/
def bodyOf : Instr → Option (List Byte)
  | .fc01Req unit addr qty => some (bodyTwo unit 0x01 addr qty)
  | .fc01Rsp unit count data => some (bodyV3 unit 0x01 count data)
  | .fc02Req unit addr qty => some (bodyTwo unit 0x02 addr qty)
  | .fc02Rsp unit count data => some (bodyV3 unit 0x02 count data)
  | .fc03Req unit addr qty => some (bodyTwo unit 0x03 addr qty)
  | .fc03Rsp unit count data => some (bodyV3 unit 0x03 count data)
  | .fc04Req unit addr qty => some (bodyTwo unit 0x04 addr qty)
  | .fc04Rsp unit count data => some (bodyV3 unit 0x04 count data)
  | .fc05Req unit addr data => some (bodyTwo unit 0x05 addr data)
  | .fc05Rsp unit addr => some (unit :: 0x05 :: be16Bytes addr)
  | .fc06Req unit addr data => some (bodyTwo unit 0x06 addr data)
  | .fc06Rsp unit addr data => some (bodyTwo unit 0x06 addr data)
  | .fc15Req unit addr qty count data => some (bodyV7 unit 0x0F addr qty count data)
  | .fc15Rsp unit addr qty => some (bodyTwo unit 0x0F addr qty)
  | .fc16Req unit addr qty count data => some (bodyV7 unit 0x10 addr qty count data)
  | .fc16Rsp unit addr qty => some (bodyTwo unit 0x10 addr qty)
  | .fc23Req unit raddr rqty waddr wqty count wdata => some (bodyV11 unit 0x17 raddr rqty waddr wqty count wdata)
  | .fc23Rsp unit count data => some (bodyV3 unit 0x17 count data)
  | .exc unit fc code => some [unit, fc, code]
  | .unknownFc _ _ => none
  | .checksum _ _ => none
  | .crcInit => none
  | .crcUpdate _ => none
  | .crcCheck _ => none
  | .ingest _ => none
  | .drain => none
  | .step => none
  | .noiseStep => none
  | .emitFrame _ _ => none

/-- The wire bytes of a frame instruction: `frame(body)` (R60). -/
def encode (i : Instr) : Option (List Byte) := (bodyOf i).map frame

/-- The shape an instruction is a frame of, if it is one. -/
def Instr.shape? : Instr → Option Shape
  | .fc01Req _ _ _ => some .fc01Req
  | .fc01Rsp _ _ _ => some .fc01Rsp
  | .fc02Req _ _ _ => some .fc02Req
  | .fc02Rsp _ _ _ => some .fc02Rsp
  | .fc03Req _ _ _ => some .fc03Req
  | .fc03Rsp _ _ _ => some .fc03Rsp
  | .fc04Req _ _ _ => some .fc04Req
  | .fc04Rsp _ _ _ => some .fc04Rsp
  | .fc05Req _ _ _ => some .fc05Req
  | .fc05Rsp _ _ => some .fc05Rsp
  | .fc06Req _ _ _ => some .fc06Req
  | .fc06Rsp _ _ _ => some .fc06Rsp
  | .fc15Req _ _ _ _ _ => some .fc15Req
  | .fc15Rsp _ _ _ => some .fc15Rsp
  | .fc16Req _ _ _ _ _ => some .fc16Req
  | .fc16Rsp _ _ _ => some .fc16Rsp
  | .fc23Req _ _ _ _ _ _ _ => some .fc23Req
  | .fc23Rsp _ _ _ => some .fc23Rsp
  | .exc _ _ _ => some .exc
  | .unknownFc _ _ => none
  | .checksum _ _ => none
  | .crcInit => none
  | .crcUpdate _ => none
  | .crcCheck _ => none
  | .ingest _ => none
  | .drain => none
  | .step => none
  | .noiseStep => none
  | .emitFrame _ _ => none

/-! ### The opcode table's numbering -/

/-- The `n` low bytes of `w`, the least significant first. -/
def wordBytes : Nat → Nat → List Byte
  | 0, _ => []
  | n + 1, w => BitVec.ofNat 8 w :: wordBytes n (w / 256)

/-- The wire bytes of the instruction whose table bits are `w`. The table numbers bits from the function-code byte, at offset
1; the unit byte is in no row's bits. DESIGN CHOICE (log entry 8): unit 0, every operand byte above `nbits` 0, and, where
`nbits` does not reach the checksum field of the shape tried first, the checksum the body has (R60), since a frame without it
is no frame. -/
def tableBytes (nbits w : Nat) : List Byte :=
  let given := 0x00 :: wordBytes ((nbits + 7) / 8) w
  let raw := given ++ List.replicate 268 0x00
  let fc := raw.getD 1 0x00
  let first := if isException fc then some Shape.exc else (lookup fc).map Prod.fst
  match first.bind fun sh => need sh.layout raw with
  | none => raw.take (max 3 given.length)
  | some len => if len ≤ given.length then raw.take len else frame (raw.take (len - csumBytes))

/-- The instruction the decoder reads from the table's bits. -/
def decodeTableWord (nbits w : Nat) : Option Instr := (decode (tableBytes nbits w)).instr?

end Sys2Proof
end

