-- ==== Sys2Proof/Machine/State.lean ====
section
/-! DEFINITION. The state of one instance of the block (`10_state.md` R13 to R27), its reset value (`70_reset_and_hazards.md`
R200, R201), and the reasons a step can stop. -/

namespace Sys2Proof.Machine

/-- `NOISE`, the quarantine queue (R16): no run open, or the bytes of the open run in arrival order. -/
inductive Noise where
  | closed
  | opened (q : List Byte)
deriving DecidableEq, Repr

/-- The outcomes a `STEP` returns (R122). -/
inductive Verdict where
  | needMore
  | frame
  | noiseByte
deriving DecidableEq, Repr

/-- The value an operation returns: `CHECKSUM` a 16-bit value (R73), `CRC_CHECK` a boolean (R77), `STEP` its outcome (R122). -/
inductive Result where
  | word (c : U16)
  | flag (b : Bool)
  | verdict (v : Verdict)
deriving DecidableEq, Repr

/-- What the host may call on one instance, the complete list (R183 (b), (c)). -/
inductive HostCall where
  | ingest (chunk : List Byte)
  | checksum (bytes : List Byte) (length : Nat)
deriving DecidableEq, Repr

/-- One instance of the block. -/
structure State where
  /-- `BUF`, the accumulation buffer, oldest byte first (R15). -/
  buf : List Byte
  /-- `NOISE`, the open noise run (R16). -/
  noise : Noise
  /-- `OUT`, the events emitted since reset, in order (R20, R150). -/
  out : List Event
  /-- `CRC`, the checksum scratch register (R17; log entry 3). -/
  crc : U16
  /-- The value the last value-returning operation returned. The model's own field (log entry 2). -/
  ret : Option Result
  /-- The host's calls still to be served, oldest first. The model's own field (log entry 1). -/
  calls : List HostCall
deriving DecidableEq, Repr

/-- Reset, the creation of an instance (R200, R201). `crc`, `ret` and `calls` hold the values log entries 1 to 3 name. -/
def State.reset : State :=
  { buf := [], noise := .closed, out := [], crc := 0xFFFF, ret := none, calls := [] }

/-- Why the model stops with a fault. The block itself raises nothing (R170). -/
inductive Fault where
  /-- Raised by an operation or frame meaning that would read or drop bytes of `BUF` beyond its length (R8, R32, I10). Safe: no
  rule of the block performs such a read, and a step never reaches one. -/
  | bufReadPastEnd
deriving DecidableEq, Repr

/-- Why the model refuses. -/
inductive Refusal where
  /-- Raised by exec for an instruction that has no meaning yet. Safe: nothing is claimed of it. -/
  | notModelled (mnemonic : String)
  /-- Raised by `CHECKSUM` with `length > len(bytes)` (R73, D11, I6: "a model refuses it"). Safe. -/
  | checksumLengthOutsideContract
  /-- Raised by `CRC_CHECK(L)` with `L < 4`, outside the operand range of R77. Safe (log entry 5). -/
  | crcCheckLengthOutsideContract
  /-- Raised by the loop if the front of `BUF` decoded to an operation, which has no encoding (R61). Safe: it never does. -/
  | operationAtBufferFront
  /-- Raised by a step of an instance that does not exist (R190). Safe. -/
  | noSuchInstance
deriving DecidableEq, Repr

end Sys2Proof.Machine
end

