-- ==== Sys2Proof/Machine/Ops.lean ====
section
/-! DEFINITION. The named operations over the state: the two writes of `BUF` (R31), `emit` (R150), the noise step (R156), which
is the block's analogue of taking an exception (R177), and the emission of a frame (R157), its analogue of the return from one
(R178). -/

namespace Sys2Proof.Machine

/-- Sequencing of two parts of one operation: the first stop ends it. -/
def andThen {α β : Type} (o : Host.Outcome α Fault Refusal) (k : α → Host.Outcome β Fault Refusal) :
    Host.Outcome β Fault Refusal :=
  match o with
  | .next a => k a
  | .fault f => .fault f
  | .refused r => .refused r

/-- `BufAppend(chunk)`: `BUF <- BUF ++ chunk` (R31). -/
def bufAppend (chunk : List Byte) (s : State) : State := { s with buf := s.buf ++ chunk }

/-- `BufDrop(k)`: `BUF <- drop(BUF, k)` (R31). -/
def bufDrop (k : Nat) (s : State) : State := { s with buf := s.buf.drop k }

/-- `emit(ev)`: appends one event to `OUT`; it never waits or fails (R150). -/
def emit (ev : Event) (s : State) : State := { s with out := s.out ++ [ev] }

/-- The noise run with one more byte at its end, opened if none is open (R156). -/
def Noise.push (b : Byte) : Noise → Noise
  | .closed => .opened [b]
  | .opened q => .opened (q ++ [b])

/-- The bytes of the open run, none when it is closed (R134). -/
def Noise.bytes : Noise → List Byte
  | .closed => []
  | .opened q => q

/-- An open run is never empty (R16, R25 (b)): the one form the block's storage keeps. -/
def Noise.wf : Noise → Bool
  | .closed => true
  | .opened q => !q.isEmpty

/-- `NOISE_STEP` (R156): exactly one byte from the front of `BUF` to the noise run. An empty `BUF` has no `BUF[0]` (R32, I10). -/
def noiseByte (s : State) : Host.Outcome State Fault Refusal :=
  match s.buf with
  | [] => .fault .bufReadPastEnd
  | b :: _ => .next { bufDrop 1 s with noise := s.noise.push b }

/-- The first half of R157: an open run is emitted as one event and closed. -/
def closeRun (s : State) : State :=
  match s.noise with
  | .closed => s
  | .opened q => { emit (.noiseRun q) s with noise := .closed }

/-- `EMIT_FRAME(L, ev)` (R157): the open run first, then the frame event, then `L` bytes dropped. `drop(BUF, L)` is defined for
`L <= len(BUF)` only (R8; log entry 5). -/
def emitEvent (len : Nat) (ev : DecodedFrame) (s : State) : Host.Outcome State Fault Refusal :=
  if len ≤ s.buf.length then .next (bufDrop len (emit (.frame ev) (closeRun s)))
  else .fault .bufReadPastEnd

/-- An operation's return value, where the host finds it (log entry 2). -/
def answer (r : Result) (s : State) : State := { s with ret := some r }

end Sys2Proof.Machine
end

