-- ==== Sys2Proof/Machine/Crc.lean ====
section
/-! DEFINITION. The operations of the checksum engine (`40_checksum.md` R72, R73, R76, R77). `CHECKSUM` and `CRC_CHECK` are pure
("State written: none"): the scratch they run through exists only inside their evaluation (R17, R24), so it is `CRC_INIT` and
`CRC_UPDATE`, run as operations of their own, that write the `crc` of State (log entry 3). -/

namespace Sys2Proof.Machine

/-- CRC_INIT (R72): `CRC <- 0xFFFF`. -/
def execCrcInit (s : State) : Host.Outcome State Fault Refusal :=
  .next { s with crc := crcStart }

/-- CRC_UPDATE(b) (R76). -/
def execCrcUpdate (b : Byte) (s : State) : Host.Outcome State Fault Refusal :=
  .next { s with crc := crcByte s.crc b }

/-- CHECKSUM(bytes, length) (R73): the value of the first `length` bytes; refused for `length > len(bytes)` (D11). -/
def execChecksum (bytes : List Byte) (length : Nat) (s : State) : Host.Outcome State Fault Refusal :=
  if length ≤ bytes.length then .next (answer (.word (checksum bytes length)) s)
  else .refused .checksumLengthOutsideContract

/-- CRC_CHECK(L) (R77), for `4 <= L <= len(BUF)`. Outside that range see log entry 5. -/
def execCrcCheck (len : Nat) (s : State) : Host.Outcome State Fault Refusal :=
  if len < 4 then .refused .crcCheckLengthOutsideContract
  else if s.buf.length < len then .fault .bufReadPastEnd
  else .next (answer (.flag (crcMatches s.buf len)) s)

end Sys2Proof.Machine
end

