-- ==== Sys2Proof/Machine/Reads.lean ====
section
/-! DEFINITION. Function codes 1 to 4, the reads (`41_shape_catalog.md` R92 to R99). An instruction is the frame recognised at the
front of `BUF`; its meaning is `EMIT_FRAME` with its length and event (R122). -/

namespace Sys2Proof.Machine

/-- FC01_REQ (R92). -/
def execFc01Req (unit : Byte) (addr qty : U16) (s : State) : Host.Outcome State Fault Refusal :=
  emitEvent 8 (.request unit 0x01 (.addrQty addr qty)) s

/-- FC01_RSP (R93). -/
def execFc01Rsp (unit count : Byte) (data : List Byte) (s : State) : Host.Outcome State Fault Refusal :=
  emitEvent (5 + count.toNat) (.response unit 0x01 (.payload count data)) s

/-- FC02_REQ (R94). -/
def execFc02Req (unit : Byte) (addr qty : U16) (s : State) : Host.Outcome State Fault Refusal :=
  emitEvent 8 (.request unit 0x02 (.addrQty addr qty)) s

/-- FC02_RSP (R95). -/
def execFc02Rsp (unit count : Byte) (data : List Byte) (s : State) : Host.Outcome State Fault Refusal :=
  emitEvent (5 + count.toNat) (.response unit 0x02 (.payload count data)) s

/-- FC03_REQ (R96). -/
def execFc03Req (unit : Byte) (addr qty : U16) (s : State) : Host.Outcome State Fault Refusal :=
  emitEvent 8 (.request unit 0x03 (.addrQty addr qty)) s

/-- FC03_RSP (R97). -/
def execFc03Rsp (unit count : Byte) (data : List Byte) (s : State) : Host.Outcome State Fault Refusal :=
  emitEvent (5 + count.toNat) (.response unit 0x03 (.payload count data)) s

/-- FC04_REQ (R98). -/
def execFc04Req (unit : Byte) (addr qty : U16) (s : State) : Host.Outcome State Fault Refusal :=
  emitEvent 8 (.request unit 0x04 (.addrQty addr qty)) s

/-- FC04_RSP (R99). -/
def execFc04Rsp (unit count : Byte) (data : List Byte) (s : State) : Host.Outcome State Fault Refusal :=
  emitEvent (5 + count.toNat) (.response unit 0x04 (.payload count data)) s

end Sys2Proof.Machine
end

