-- ==== Sys2Proof/Machine/Special.lean ====
section
/-! DEFINITION. The exception shape (R110), the class of unknown function codes (R56), and the two operations of the noise
synchronizer (R156, R157). -/

namespace Sys2Proof.Machine

/-- EXC (R110): the original function code is `fc & 0x7F`; the raw byte is not carried (R154). -/
def execExc (unit fc code : Byte) (s : State) : Host.Outcome State Fault Refusal :=
  emitEvent excLen (.exception unit (fc &&& fcMask) code) s

/-- UNKNOWN_FC (R56, R125): one noise step, whatever the two bytes are. -/
def execUnknownFc (_unit _fc : Byte) (s : State) : Host.Outcome State Fault Refusal :=
  noiseByte s

/-- NOISE_STEP (R156). -/
def execNoiseStep (s : State) : Host.Outcome State Fault Refusal :=
  noiseByte s

/-- EMIT_FRAME(L, ev) (R157). -/
def execEmitFrame (len : Nat) (ev : DecodedFrame) (s : State) : Host.Outcome State Fault Refusal :=
  emitEvent len ev s

end Sys2Proof.Machine
end

