-- ==== Sys2Proof/Machine/Writes.lean ====
section
/-! DEFINITION. Function codes 5, 6, 15, 16 and 23, the writes (`41_shape_catalog.md` R100 to R109). -/

namespace Sys2Proof.Machine

/-- FC05_REQ (R100). -/
def execFc05Req (unit : Byte) (addr data : U16) (s : State) : Host.Outcome State Fault Refusal :=
  emitEvent 8 (.request unit 0x05 (.addrData addr data)) s

/-- FC05_RSP (R101): 6 bytes, no data echo; "A model must not widen it to 8 bytes". -/
def execFc05Rsp (unit : Byte) (addr : U16) (s : State) : Host.Outcome State Fault Refusal :=
  emitEvent 6 (.response unit 0x05 (.addrOnly addr)) s

/-- FC06_REQ (R102). -/
def execFc06Req (unit : Byte) (addr data : U16) (s : State) : Host.Outcome State Fault Refusal :=
  emitEvent 8 (.request unit 0x06 (.addrData addr data)) s

/-- FC06_RSP (R103): the catalog's rule; the decoder never answers it (R112 (a)). -/
def execFc06Rsp (unit : Byte) (addr data : U16) (s : State) : Host.Outcome State Fault Refusal :=
  emitEvent 8 (.response unit 0x06 (.addrData addr data)) s

/-- FC15_REQ (R104). -/
def execFc15Req (unit : Byte) (addr qty : U16) (count : Byte) (data : List Byte) (s : State) :
    Host.Outcome State Fault Refusal :=
  emitEvent (9 + count.toNat) (.request unit 0x0F (.addrQtyPayload addr qty count data)) s

/-- FC15_RSP (R105). -/
def execFc15Rsp (unit : Byte) (addr qty : U16) (s : State) : Host.Outcome State Fault Refusal :=
  emitEvent 8 (.response unit 0x0F (.addrQty addr qty)) s

/-- FC16_REQ (R106). -/
def execFc16Req (unit : Byte) (addr qty : U16) (count : Byte) (data : List Byte) (s : State) :
    Host.Outcome State Fault Refusal :=
  emitEvent (9 + count.toNat) (.request unit 0x10 (.addrQtyPayload addr qty count data)) s

/-- FC16_RSP (R107). -/
def execFc16Rsp (unit : Byte) (addr qty : U16) (s : State) : Host.Outcome State Fault Refusal :=
  emitEvent 8 (.response unit 0x10 (.addrQty addr qty)) s

/-- FC23_REQ (R108). -/
def execFc23Req (unit : Byte) (raddr rqty waddr wqty : U16) (count : Byte) (wdata : List Byte) (s : State) :
    Host.Outcome State Fault Refusal :=
  emitEvent (13 + count.toNat) (.request unit 0x17 (.readWrite raddr rqty waddr wqty count wdata)) s

/-- FC23_RSP (R109). -/
def execFc23Rsp (unit count : Byte) (data : List Byte) (s : State) : Host.Outcome State Fault Refusal :=
  emitEvent (5 + count.toNat) (.response unit 0x17 (.payload count data)) s

end Sys2Proof.Machine
end

