-- ==== Sys2Proof/Machine/Reassembler.lean ====
section
/-! DEFINITION. The reassembler (`42_reassembler.md`): one pass of the loop, `STEP`, `DRAIN`, `INGEST`. -/

namespace Sys2Proof.Machine

/-- What the loop does with the instruction its decoder found at the front of `BUF` (R122). An operation has no encoding (R61)
and is never found there. -/
def runFront (i : Instr) (s : State) : Host.Outcome State Fault Refusal :=
  match i with
  | .fc01Req unit addr qty => execFc01Req unit addr qty s
  | .fc01Rsp unit count data => execFc01Rsp unit count data s
  | .fc02Req unit addr qty => execFc02Req unit addr qty s
  | .fc02Rsp unit count data => execFc02Rsp unit count data s
  | .fc03Req unit addr qty => execFc03Req unit addr qty s
  | .fc03Rsp unit count data => execFc03Rsp unit count data s
  | .fc04Req unit addr qty => execFc04Req unit addr qty s
  | .fc04Rsp unit count data => execFc04Rsp unit count data s
  | .fc05Req unit addr data => execFc05Req unit addr data s
  | .fc05Rsp unit addr => execFc05Rsp unit addr s
  | .fc06Req unit addr data => execFc06Req unit addr data s
  | .fc06Rsp unit addr data => execFc06Rsp unit addr data s
  | .fc15Req unit addr qty count data => execFc15Req unit addr qty count data s
  | .fc15Rsp unit addr qty => execFc15Rsp unit addr qty s
  | .fc16Req unit addr qty count data => execFc16Req unit addr qty count data s
  | .fc16Rsp unit addr qty => execFc16Rsp unit addr qty s
  | .fc23Req unit raddr rqty waddr wqty count wdata => execFc23Req unit raddr rqty waddr wqty count wdata s
  | .fc23Rsp unit count data => execFc23Rsp unit count data s
  | .exc unit fc code => execExc unit fc code s
  | .unknownFc unit fc => execUnknownFc unit fc s
  | .noiseStep => execNoiseStep s
  | .checksum _ _ => .refused .operationAtBufferFront
  | .crcInit => .refused .operationAtBufferFront
  | .crcUpdate _ => .refused .operationAtBufferFront
  | .crcCheck _ => .refused .operationAtBufferFront
  | .ingest _ => .refused .operationAtBufferFront
  | .drain => .refused .operationAtBufferFront
  | .step => .refused .operationAtBufferFront
  | .emitFrame _ _ => .refused .operationAtBufferFront

/-- One pass of the loop (R122): the verdict and what it did to the state. -/
def pass (s : State) : Host.Outcome (Verdict × State) Fault Refusal :=
  match decode s.buf with
  | .needMore _ => .next (.needMore, s)
  | .noiseByte i => andThen (runFront i s) fun t => .next (.noiseByte, t)
  | .frame _ i => andThen (runFront i s) fun t => .next (.frame, t)

/-- The loop of R121, for at most `n` passes. -/
def drainLoop : Nat → State → Host.Outcome State Fault Refusal
  | 0, s => .next s
  | n + 1, s =>
    andThen (pass s) fun (v, t) =>
      match v with
      | .needMore => .next t
      | .noiseByte => drainLoop n t
      | .frame => drainLoop n t

/-- DRAIN's loop to its end: every pass but the last shortens `BUF`, so `len(BUF) + 1` passes suffice (R131; log entry 10). -/
def drainAll (s : State) : Host.Outcome State Fault Refusal :=
  drainLoop (s.buf.length + 1) s

/-- STEP (R122): one pass, its outcome returned. -/
def execStep (s : State) : Host.Outcome State Fault Refusal :=
  andThen (pass s) fun (v, t) => .next (answer (.verdict v) t)

/-- DRAIN (R121): passes until one returns NEED_MORE. It returns no value. -/
def execDrain (s : State) : Host.Outcome State Fault Refusal :=
  drainAll s

/-- INGEST(chunk) (R120): the whole chunk appended, then the loop. It returns no value. -/
def execIngest (chunk : List Byte) (s : State) : Host.Outcome State Fault Refusal :=
  drainAll (bufAppend chunk s)

end Sys2Proof.Machine
end

