-- ==== Sys2Proof/Machine/Dispatch.lean ====
section
/-! DEFINITION. The one dispatch: a meaning for every row of the opcode table. -/

namespace Sys2Proof.Machine

def exec (i : Instr) (s : State) : Host.Outcome State Fault Refusal :=
  match i with
  | .fc01Req unit addr qty => Sys2Proof.Machine.execFc01Req unit addr qty s
  | .fc01Rsp unit count data => Sys2Proof.Machine.execFc01Rsp unit count data s
  | .fc02Req unit addr qty => Sys2Proof.Machine.execFc02Req unit addr qty s
  | .fc02Rsp unit count data => Sys2Proof.Machine.execFc02Rsp unit count data s
  | .fc03Req unit addr qty => Sys2Proof.Machine.execFc03Req unit addr qty s
  | .fc03Rsp unit count data => Sys2Proof.Machine.execFc03Rsp unit count data s
  | .fc04Req unit addr qty => Sys2Proof.Machine.execFc04Req unit addr qty s
  | .fc04Rsp unit count data => Sys2Proof.Machine.execFc04Rsp unit count data s
  | .fc05Req unit addr data => Sys2Proof.Machine.execFc05Req unit addr data s
  | .fc05Rsp unit addr => Sys2Proof.Machine.execFc05Rsp unit addr s
  | .fc06Req unit addr data => Sys2Proof.Machine.execFc06Req unit addr data s
  | .fc06Rsp unit addr data => Sys2Proof.Machine.execFc06Rsp unit addr data s
  | .fc15Req unit addr qty count data => Sys2Proof.Machine.execFc15Req unit addr qty count data s
  | .fc15Rsp unit addr qty => Sys2Proof.Machine.execFc15Rsp unit addr qty s
  | .fc16Req unit addr qty count data => Sys2Proof.Machine.execFc16Req unit addr qty count data s
  | .fc16Rsp unit addr qty => Sys2Proof.Machine.execFc16Rsp unit addr qty s
  | .fc23Req unit raddr rqty waddr wqty count wdata => Sys2Proof.Machine.execFc23Req unit raddr rqty waddr wqty count wdata s
  | .fc23Rsp unit count data => Sys2Proof.Machine.execFc23Rsp unit count data s
  | .exc unit fc code => Sys2Proof.Machine.execExc unit fc code s
  | .unknownFc unit fc => Sys2Proof.Machine.execUnknownFc unit fc s
  | .checksum bytes length => Sys2Proof.Machine.execChecksum bytes length s
  | .crcInit => Sys2Proof.Machine.execCrcInit s
  | .crcUpdate b => Sys2Proof.Machine.execCrcUpdate b s
  | .crcCheck len => Sys2Proof.Machine.execCrcCheck len s
  | .ingest chunk => Sys2Proof.Machine.execIngest chunk s
  | .drain => Sys2Proof.Machine.execDrain s
  | .step => Sys2Proof.Machine.execStep s
  | .noiseStep => Sys2Proof.Machine.execNoiseStep s
  | .emitFrame len ev => Sys2Proof.Machine.execEmitFrame len ev s

end Sys2Proof.Machine
end

