-- ==== Sys2Proof/Config.lean ====
section
/-! DEFINITION. What an implementation may fix. `92_eei_decisions.md` ends: "The block proper (`CHECKSUM`, `INGEST`) has no
open parameter: its behaviour is a function of its inputs and its state alone"; the one open parameter of the whole
spec is the host's baud rate (D16), an argument of the external timeout formula. So there is no constant of unknown value
here; the constants the source fixes (R6) stand in Machine/Constants.lean. -/

namespace Sys2Proof

/-- `BAUD` (D16): a positive number the host supplies, an exact real (R186, I7). -/
abbrev Config.Baud := ℝ

end Sys2Proof
end

