-- ==== Sys2Proof/Machine/Host.lean ====
section
/-! DEFINITION. The host's side of the interface (`60_exceptions.md`): the operation each call stands for (R183), the driver's call
for what its read returned (R187), and the silence timeout, an external formula (R186). -/

namespace Sys2Proof.Machine

/-- The operation a host call runs (R183). -/
def HostCall.instr : HostCall → Instr
  | .ingest chunk => .ingest chunk
  | .checksum bytes length => .checksum bytes length

/-- A call within the contract: `CHECKSUM` with `length <= len(bytes)` (R73, D11). `INGEST` takes any chunk (R120). -/
def HostCall.inContract : HostCall → Bool
  | .ingest _ => true
  | .checksum bytes length => decide (length ≤ bytes.length)

/-- The bytes a call delivers. -/
def HostCall.bytes : HostCall → List Byte
  | .ingest chunk => chunk
  | .checksum _ _ => []

/-- The driver's call for what a read returned, empty or not: "passed to `ingest` as-is" (R187). -/
def driverCall (read : List Byte) : HostCall := .ingest read

/-- The reads of a driver loop queued behind the calls still to be served, in the order read (R187). -/
def State.deliver (reads : List (List Byte)) (s : State) : State :=
  { s with calls := s.calls ++ reads.map driverCall }

/-- `t` is the inter-frame timeout in seconds for the baud rate `b` (R186), over exact reals (D16): `33 / b` below 19200, strictly,
and 0.00175 from there on. A rate `b <= 0` is outside the contract (D16, I7) and has none. No rule of the block depends on it. -/
def IsSilenceTimeout (b : Config.Baud) (t : ℝ) : Prop :=
  0 < b ∧ ((b < 19200 ∧ t = 33 / b) ∨ (19200 ≤ b ∧ t = 7 / 4000))

/-- The same formula where it can be evaluated, at a rational rate (log entry 9); `none` where there is no timeout. -/
def silenceTimeout (b : ℚ) : Option ℚ :=
  if b ≤ 0 then none
  else if b < 19200 then some (33 / b)
  else some (7 / 4000)

end Sys2Proof.Machine
end

