-- ==== Sys2Proof/Machine/Step.lean ====
section
/-! DEFINITION. One step of the machine, and the placing of an instruction where the next step fetches it. -/

namespace Sys2Proof.Machine

/-- One step. While the front of `BUF` gives a frame or a noise byte the loop runs on, one pass a step; when it gives NEED_MORE
the call before has ended, and the next host call is served, `INGEST` as one atomic operation (R38, R211). With no call to serve
the block "is simply idle with its state kept" (R191). DESIGN CHOICE (log entries 1 and 6). -/
def step (s : State) : Host.Outcome State Fault Refusal :=
  match decode s.buf with
  | .frame _ i => exec i s
  | .noiseByte i => exec i s
  | .needMore _ =>
    match s.calls with
    | [] => .next s
    | c :: rest => exec c.instr { s with calls := rest }

/-- The instruction's wire bytes at the front of `BUF`, the decode position (R14; log entry 8). -/
def State.withFetchWord (s : State) (nbits w : Nat) : State :=
  { s with buf := tableBytes nbits w ++ s.buf }

end Sys2Proof.Machine
end

