-- ==== Sys2Proof/Machine/Fleet.lean ====
section
/-! DEFINITION. Several independent instances (`60_exceptions.md` R190): a list of states, one of which steps at a time. -/

namespace Sys2Proof.Machine

/-- One step of instance `k` of a fleet; the other instances are not touched (R190). -/
def stepInstance (k : Nat) (fleet : List State) : Host.Outcome (List State) Fault Refusal :=
  match fleet[k]? with
  | none => .refused .noSuchInstance
  | some s => andThen (step s) fun t => .next (fleet.set k t)

end Sys2Proof.Machine
end

