-- ==== Sys2Proof/Machine/Flags.lean ====
section
/-! DEFINITION. The block's one status flag and the three conceptual states, all derived from state (`10_state.md` R21,
`90_conflicts.md` C5). No rule depends on the three names. -/

namespace Sys2Proof.Machine

/-- `noise_open`: true exactly when `NOISE = open(q)` (R21). -/
def noiseOpen (s : State) : Bool :=
  match s.noise with
  | .closed => false
  | .opened _ => true

/-- `AwaitingBytes`: a step on the present `BUF` returns NEED_MORE (R21, R25 (d)). -/
def awaitingBytes (s : State) : Bool := (decode s.buf).waits

/-- `HaveCandidateFrame`: inside a step, the header is there, `len(BUF) >= 3` (R21). -/
def haveCandidateFrame (s : State) : Bool := decide (3 ≤ s.buf.length)

/-- `NoiseActive` is `noise_open` (R21). -/
def noiseActive (s : State) : Bool := noiseOpen s

end Sys2Proof.Machine
end

