-- ==== Sys2Proof/Safety.lean ====
section
/-! DEFINITION. What a safe run is, in the terms the statements use: the form the storage keeps (R16, R25), the form of the
event stream (R159), byte accounting (R134), calls within their contract (R183), and sequences of operations. -/

namespace Sys2Proof.Machine

/-- The storage's canonical form: an open noise run is not empty (R16, R25 (b)). `BUF` is a list of bytes, canonical as it is. -/
def Memory.wf (s : State) : Bool := s.noise.wf

/-- The form of the event stream: a NoiseRun is not empty (R151) and the next event after it is a frame (R159). -/
def runsPaired : List Event → Bool
  | [] => true
  | .frame _ :: rest => runsPaired rest
  | .noiseRun q :: .frame _ :: rest => !q.isEmpty && runsPaired rest
  | .noiseRun _ :: .noiseRun _ :: _ => false
  | [.noiseRun _] => false

/-- The invariant of the block's storage and output. -/
def State.Inv (s : State) : Prop := Memory.wf s = true ∧ runsPaired s.out = true

/-- The events that close a run: one NoiseRun when one is open (R157). -/
def Noise.closing : Noise → List Event
  | .closed => []
  | .opened q => [.noiseRun q]

/-- The state R157 describes after `EMIT_FRAME(L, ev)`: the run closed and emitted, then the frame event, `L` bytes gone from the
front of `BUF`, nothing else changed. -/
def afterFrame (len : Nat) (ev : DecodedFrame) (s : State) : State :=
  { s with buf := s.buf.drop len, noise := .closed, out := s.out ++ s.noise.closing ++ [.frame ev] }

/-- Where every delivered byte is: in the events, in the open run, in `BUF`, in that order (R134). -/
def accounted (s : State) : List Byte :=
  s.out.flatMap Event.wireBytes ++ s.noise.bytes ++ s.buf

/-- The bytes the host's queued calls will deliver. -/
def undelivered (s : State) : List Byte := s.calls.flatMap HostCall.bytes

/-- Every queued call is within its contract (R183, D11). -/
def State.callsInContract (s : State) : Bool := s.calls.all HostCall.inContract

/-- Operations run one after the other, stopping at the first stop. -/
def execAll : List Instr → State → Host.Outcome State Fault Refusal
  | [], s => .next s
  | i :: rest, s => andThen (exec i s) fun t => execAll rest t

/-- A sequence of `INGEST` calls, a run of the block (R218). -/
def ingestAll (chunks : List (List Byte)) (s : State) : Host.Outcome State Fault Refusal :=
  execAll (chunks.map Instr.ingest) s

end Sys2Proof.Machine
end

