-- ==== Sys2Proof/WellFormed.lean ====
section
/-! DEFINITION. Which instructions are well formed: a payload has the length its count byte says (R51), an exception frame's
function-code byte has bit 7 set (R110), an unknown code is one (R56), and an operation's operands lie in its contract (R73,
R77, R157). -/

namespace Sys2Proof

open Machine

/-- The operands are ones the encoding or the operation's contract admits. -/
def Instr.wf : Instr → Bool
  | .fc01Req _ _ _ => true
  | .fc01Rsp _ count data => data.length == count.toNat
  | .fc02Req _ _ _ => true
  | .fc02Rsp _ count data => data.length == count.toNat
  | .fc03Req _ _ _ => true
  | .fc03Rsp _ count data => data.length == count.toNat
  | .fc04Req _ _ _ => true
  | .fc04Rsp _ count data => data.length == count.toNat
  | .fc05Req _ _ _ => true
  | .fc05Rsp _ _ => true
  | .fc06Req _ _ _ => true
  | .fc06Rsp _ _ _ => true
  | .fc15Req _ _ _ count data => data.length == count.toNat
  | .fc15Rsp _ _ _ => true
  | .fc16Req _ _ _ count data => data.length == count.toNat
  | .fc16Rsp _ _ _ => true
  | .fc23Req _ _ _ _ _ count wdata => wdata.length == count.toNat
  | .fc23Rsp _ count data => data.length == count.toNat
  | .exc _ fc _ => isException fc
  | .unknownFc _ fc => isUnknown fc
  | .checksum bytes length => decide (length ≤ bytes.length)
  | .crcInit => true
  | .crcUpdate _ => true
  | .crcCheck len => decide (4 ≤ len)
  | .ingest _ => true
  | .drain => true
  | .step => true
  | .noiseStep => true
  | .emitFrame len ev => ev.wf && len == (Event.wireBytes (.frame ev)).length

end Sys2Proof
end

