-- ==== Sys2Proof/Certificates/Slice0/Obligations.lean ====
section
/-! DEFINITION. The statements for the provers. A statement about a state holds of every state, reached or not, unless it says
otherwise. -/

open Sys2Proof Sys2Proof.Machine

/-! ### Reset -/

/-- R200, R201: after reset the buffer and the output are empty, no run is open, the flag is false. -/
def Obligations.ResetIsEmptyAndClosed : Prop :=
  State.reset.buf = [] ∧ State.reset.noise = .closed ∧ State.reset.out = [] ∧ noiseOpen State.reset = false

/-- The invariants the other statements keep hold at reset; a step of the reset state waits. -/
def Obligations.ResetMeetsInvariants : Prop :=
  State.reset.Inv ∧ accounted State.reset = [] ∧ undelivered State.reset = [] ∧
    State.reset.callsInContract = true ∧ awaitingBytes State.reset = true

/-! ### The checksum engine -/

/-- R72: `CRC <- 0xFFFF`, both state bytes 0xFF, nothing else written. -/
def Obligations.CrcInitLoadsStartValue : Prop :=
  ∀ s, ∃ t, exec .crcInit s = .next t ∧ t = { s with crc := 0xFFFF } ∧ lowByte t.crc = 0xFF ∧ highByte t.crc = 0xFF

/-- R76 (the reading of decision D4): index `CRC[7:0] ^ b`; the new low byte is the old high byte combined with `TAB_LO`, the new
high byte is the entry of `TAB_HI`; nothing else is written. -/
def Obligations.CrcUpdateTakesOneByte : Prop :=
  ∀ s b, ∃ t, exec (.crcUpdate b) s = .next t ∧
    lowByte t.crc = highByte s.crc ^^^ tabLo (lowByte s.crc ^^^ b) ∧
    highByte t.crc = tabHi (lowByte s.crc ^^^ b) ∧
    t = { s with crc := t.crc }

/-- R73: `CHECKSUM(bytes, length)` returns what the scratch holds after `CRC_INIT` and a `CRC_UPDATE` of each of the first
`length` bytes, front first; it writes no state, and 0xFFFF is the value of length 0. The return value stands in the model's own
field `ret` (log entry 2). -/
def Obligations.ChecksumIsInitThenUpdates : Prop :=
  ∀ s (bytes : List Byte) (n : Nat), n ≤ bytes.length →
    ∃ t, execAll (.crcInit :: (bytes.take n).map Instr.crcUpdate) s = .next t ∧
      exec (.checksum bytes n) s = .next { s with ret := some (.word t.crc) } ∧ (n = 0 → t.crc = 0xFFFF)

/-- Decision D11: a `length` beyond the bytes is refused. -/
def Obligations.ChecksumBeyondBytesRefused : Prop :=
  ∀ s (bytes : List Byte) (n : Nat), bytes.length < n →
    exec (.checksum bytes n) s = .refused .checksumLengthOutsideContract

/-- R79: the value can be computed incrementally. -/
def Obligations.ChecksumIsIncremental : Prop :=
  ∀ (s : List Byte) (b : Byte), checksum (s ++ [b]) (s.length + 1) = crcByte (checksum s s.length) b

/-- R80: the checksum of a body with its own checksum behind it, low byte first, is 0. -/
def Obligations.ChecksumResidueIsZero : Prop :=
  ∀ body : List Byte, checksum (frame body) (body.length + 2) = 0

/-- R75: the printed tables are those of the generating rule (log entry 4: both from general knowledge). -/
def Obligations.TablesFollowGeneratingRule : Prop :=
  ∀ i : Byte, pack (tabHi i) (tabLo i) = t16 i

/-- R76, its equivalent form: `CRC <- (CRC >> 8) ^ T16(CRC[7:0] ^ b)`. -/
def Obligations.CrcUpdateShiftForm : Prop :=
  ∀ (c : U16) (b : Byte), crcByte c b = (c >>> 8) ^^^ t16 (lowByte c ^^^ b)

/-- R77: for `4 <= L <= len(BUF)`, `CRC_CHECK(L)` answers whether `BUF[L-2]` and `BUF[L-1]` are the low and the high byte of the
checksum of `BUF[0 : L-2)`; it writes no state. -/
def Obligations.CrcCheckComparesTrailingBytes : Prop :=
  ∀ s (len : Nat), 4 ≤ len → len ≤ s.buf.length →
    ∃ lo hi, s.buf[len - 2]? = some lo ∧ s.buf[len - 1]? = some hi ∧
      exec (.crcCheck len) s = .next { s with ret := some (.flag
        (lo == lowByte (checksum s.buf (len - 2)) && hi == highByte (checksum s.buf (len - 2)))) }

/-- Log entry 5: outside its operand range `CRC_CHECK` stops by name. -/
def Obligations.CrcCheckOutsideContractStops : Prop :=
  ∀ s (len : Nat), (len < 4 → exec (.crcCheck len) s = .refused .crcCheckLengthOutsideContract) ∧
    (4 ≤ len → s.buf.length < len → exec (.crcCheck len) s = .fault .bufReadPastEnd)

/-! ### The frame rows: result, frame and completion of each -/

/-- The nine request rows: with their bytes there, each emits its Request (after the open run), drops its length and changes
nothing else. -/
def Obligations.RequestRowsEmitTheirEvent : Prop :=
  ∀ s (u c : Byte) (x y z w : U16) (d : List Byte),
    (8 ≤ s.buf.length →
      exec (.fc01Req u x y) s = .next (afterFrame 8 (.request u 0x01 (.addrQty x y)) s) ∧
      exec (.fc02Req u x y) s = .next (afterFrame 8 (.request u 0x02 (.addrQty x y)) s) ∧
      exec (.fc03Req u x y) s = .next (afterFrame 8 (.request u 0x03 (.addrQty x y)) s) ∧
      exec (.fc04Req u x y) s = .next (afterFrame 8 (.request u 0x04 (.addrQty x y)) s) ∧
      exec (.fc05Req u x y) s = .next (afterFrame 8 (.request u 0x05 (.addrData x y)) s) ∧
      exec (.fc06Req u x y) s = .next (afterFrame 8 (.request u 0x06 (.addrData x y)) s)) ∧
    (9 + c.toNat ≤ s.buf.length →
      exec (.fc15Req u x y c d) s = .next (afterFrame (9 + c.toNat) (.request u 0x0F (.addrQtyPayload x y c d)) s) ∧
      exec (.fc16Req u x y c d) s = .next (afterFrame (9 + c.toNat) (.request u 0x10 (.addrQtyPayload x y c d)) s)) ∧
    (13 + c.toNat ≤ s.buf.length →
      exec (.fc23Req u x y z w c d) s = .next (afterFrame (13 + c.toNat) (.request u 0x17 (.readWrite x y z w c d)) s))

/-- The nine response rows, FC06_RSP as its rule gives it (the decoder never answers it). -/
def Obligations.ResponseRowsEmitTheirEvent : Prop :=
  ∀ s (u c : Byte) (x y : U16) (d : List Byte),
    (5 + c.toNat ≤ s.buf.length →
      exec (.fc01Rsp u c d) s = .next (afterFrame (5 + c.toNat) (.response u 0x01 (.payload c d)) s) ∧
      exec (.fc02Rsp u c d) s = .next (afterFrame (5 + c.toNat) (.response u 0x02 (.payload c d)) s) ∧
      exec (.fc03Rsp u c d) s = .next (afterFrame (5 + c.toNat) (.response u 0x03 (.payload c d)) s) ∧
      exec (.fc04Rsp u c d) s = .next (afterFrame (5 + c.toNat) (.response u 0x04 (.payload c d)) s) ∧
      exec (.fc23Rsp u c d) s = .next (afterFrame (5 + c.toNat) (.response u 0x17 (.payload c d)) s)) ∧
    (6 ≤ s.buf.length →
      exec (.fc05Rsp u x) s = .next (afterFrame 6 (.response u 0x05 (.addrOnly x)) s)) ∧
    (8 ≤ s.buf.length →
      exec (.fc06Rsp u x y) s = .next (afterFrame 8 (.response u 0x06 (.addrData x y)) s) ∧
      exec (.fc15Rsp u x y) s = .next (afterFrame 8 (.response u 0x0F (.addrQty x y)) s) ∧
      exec (.fc16Rsp u x y) s = .next (afterFrame 8 (.response u 0x10 (.addrQty x y)) s))

/-- The exception row: original function code `fc & 0x7F`, 5 bytes. -/
def Obligations.ExceptionRowEmitsItsEvent : Prop :=
  ∀ s (u fc code : Byte), 5 ≤ s.buf.length →
    exec (.exc u fc code) s = .next (afterFrame 5 (.exception u (fc &&& 0x7F) code) s)

/-- R157: `EMIT_FRAME` on bytes that are there: the open run first, closed, then the frame event with nothing between them, then
exactly `L` bytes dropped; nothing else changes. -/
def Obligations.EmitFrameClosesTheRunFirst : Prop :=
  ∀ s (len : Nat) (ev : DecodedFrame), len ≤ s.buf.length →
    (s.noise = .closed →
      exec (.emitFrame len ev) s = .next { s with buf := s.buf.drop len, out := s.out ++ [.frame ev] }) ∧
    (∀ q, s.noise = .opened q →
      exec (.emitFrame len ev) s =
        .next { s with buf := s.buf.drop len, noise := .closed, out := s.out ++ [.noiseRun q, .frame ev] })

/-- R156, R173: `NOISE_STEP`, and UNKNOWN_FC like it, moves exactly the front byte to the run, opened if none is open; it emits
nothing and changes nothing else. -/
def Obligations.NoiseStepMovesOneByte : Prop :=
  ∀ s (b u fc : Byte) (rest : List Byte) (i : Instr), s.buf = b :: rest → i = .noiseStep ∨ i = .unknownFc u fc →
    (s.noise = .closed → exec i s = .next { s with buf := rest, noise := .opened [b] }) ∧
    (∀ q, s.noise = .opened q → exec i s = .next { s with buf := rest, noise := .opened (q ++ [b]) })

/-- R32, I10 (log entry 5): an operation that would read or drop bytes beyond the end of `BUF` stops by name. -/
def Obligations.PastTheEndOfBufStops : Prop :=
  ∀ s (i : Instr) (body : List Byte) (len : Nat) (ev : DecodedFrame),
    (i.wf = true → bodyOf i = some body → s.buf.length < body.length + 2 → exec i s = .fault .bufReadPastEnd) ∧
    (s.buf.length < len → exec (.emitFrame len ev) s = .fault .bufReadPastEnd) ∧
    (s.buf = [] → exec .noiseStep s = .fault .bufReadPastEnd)

/-! ### STEP and its branches -/

/-- R90: the catalog by the exact function-code byte: a shape pair for nine codes, nothing for the other codes with bit 7 clear. A
code with bit 7 set is never looked up: it can only be the exception shape, and is never an unknown code. -/
def Obligations.CatalogLookup : Prop :=
  lookup 0x01 = some (.fc01Req, .fc01Rsp) ∧ lookup 0x02 = some (.fc02Req, .fc02Rsp) ∧
  lookup 0x03 = some (.fc03Req, .fc03Rsp) ∧ lookup 0x04 = some (.fc04Req, .fc04Rsp) ∧
  lookup 0x05 = some (.fc05Req, .fc05Rsp) ∧ lookup 0x06 = some (.fc06Req, .fc06Rsp) ∧
  lookup 0x0F = some (.fc15Req, .fc15Rsp) ∧ lookup 0x10 = some (.fc16Req, .fc16Rsp) ∧
  lookup 0x17 = some (.fc23Req, .fc23Rsp) ∧
  (∀ fc : Byte, fc &&& 0x80 = 0 → fc ∉ ([1, 2, 3, 4, 5, 6, 15, 16, 23] : List Byte) → lookup fc = none) ∧
  (∀ (b : List Byte) (fc : Byte), b[1]? = some fc → fc &&& 0x80 ≠ 0 →
    (∀ len i, decode b = .frame len i → i.shape? = some .exc) ∧ (∀ u f, decode b ≠ .noiseByte (.unknownFc u f)))

/-- R123: with fewer than 3 bytes a step decides nothing, whatever they are. A returned value stands in the model's own field `ret`,
here and below (log entry 2). -/
def Obligations.HeaderCheckWaits : Prop :=
  ∀ s, s.buf.length < 3 → exec .step s = .next { s with ret := some (.verdict .needMore) }

/-- R124, R110, R55: bit 7 alone selects the exception shape. With 3 or 4 bytes the step waits; with 5 the checksum of the first
three decides between the Exception event and one noise byte. The catalog is not consulted. -/
def Obligations.ExceptionBranchOfStep : Prop :=
  ∀ s (u fc : Byte) (rest : List Byte), s.buf = u :: fc :: rest → fc &&& 0x80 ≠ 0 →
    (rest.length < 3 → exec .step s = .next { s with ret := some (.verdict .needMore) }) ∧
    (∀ code lo hi r, rest = code :: lo :: hi :: r →
      (lo = lowByte (checksum [u, fc, code] 3) ∧ hi = highByte (checksum [u, fc, code] 3) →
        exec .step s = .next { afterFrame 5 (.exception u (fc &&& 0x7F) code) s with ret := some (.verdict .frame) }) ∧
      (¬ (lo = lowByte (checksum [u, fc, code] 3) ∧ hi = highByte (checksum [u, fc, code] 3)) →
        exec .step s =
          .next { s with buf := fc :: rest, noise := s.noise.push u, ret := some (.verdict .noiseByte) }))

/-- R56, R125, R173: a code with bit 7 clear that is none of the nine is one noise byte as soon as 3 bytes are there; there are 119
such codes. -/
def Obligations.UnknownCodeIsOneNoiseByte : Prop :=
  (∀ s (u fc x : Byte) (rest : List Byte), s.buf = u :: fc :: x :: rest → fc &&& 0x80 = 0 →
    fc ∉ ([1, 2, 3, 4, 5, 6, 15, 16, 23] : List Byte) →
      exec .step s =
        .next { s with buf := fc :: x :: rest, noise := s.noise.push u, ret := some (.verdict .noiseByte) }) ∧
  ((List.range 256).filter fun n => (BitVec.ofNat 8 n &&& 0x80 == (0 : Byte)) &&
    !(([1, 2, 3, 4, 5, 6, 15, 16, 23] : List Byte).contains (BitVec.ofNat 8 n))).length = 119

/-- R126: the request shape is tried first. While its length is not there the step waits, whatever the response shape would say;
with the length there and the checksum fitting it emits a Request, the one whose fields make up the bytes consumed (R152, R160), and
drops the frame's full length. -/
def Obligations.RequestAttemptOfStep : Prop :=
  ∀ s (u fc : Byte) (rest : List Byte) (req rsp : Shape), s.buf = u :: fc :: rest → 3 ≤ s.buf.length →
    lookup fc = some (req, rsp) →
      (need req.layout s.buf = none → exec .step s = .next { s with ret := some (.verdict .needMore) }) ∧
      (∀ len, need req.layout s.buf = some len → crcMatches s.buf len = true →
        ∃ fields, DecodedFrame.wf (.request u fc fields) = true ∧
          Event.wireBytes (.frame (.request u fc fields)) = s.buf.take len ∧
          exec .step s = .next { afterFrame len (.request u fc fields) s with ret := some (.verdict .frame) })

/-- R127, R128: on a request mismatch the response shape is tried identically: it waits, or emits a Response, or, mismatched too,
gives one noise byte. -/
def Obligations.ResponseAttemptOfStep : Prop :=
  ∀ s (u fc : Byte) (rest : List Byte) (req rsp : Shape) (reqLen : Nat), s.buf = u :: fc :: rest → 3 ≤ s.buf.length →
    lookup fc = some (req, rsp) → need req.layout s.buf = some reqLen → crcMatches s.buf reqLen = false →
      (need rsp.layout s.buf = none → exec .step s = .next { s with ret := some (.verdict .needMore) }) ∧
      (∀ len, need rsp.layout s.buf = some len → crcMatches s.buf len = true →
        ∃ fields, DecodedFrame.wf (.response u fc fields) = true ∧
          Event.wireBytes (.frame (.response u fc fields)) = s.buf.take len ∧
          exec .step s = .next { afterFrame len (.response u fc fields) s with ret := some (.verdict .frame) }) ∧
      (∀ len, need rsp.layout s.buf = some len → crcMatches s.buf len = false →
        exec .step s =
          .next { s with buf := fc :: rest, noise := s.noise.push u, ret := some (.verdict .noiseByte) })

/-- R130: every step completes; NEED_MORE drops nothing and changes nothing, NOISE_BYTE drops one byte, FRAME drops the frame's
length, and what the step does is what the decoded instruction does. -/
def Obligations.StepConsumesByVerdict : Prop :=
  ∀ s, ∃ t, exec .step s = .next t ∧ t.crc = s.crc ∧ t.calls = s.calls ∧
    (∀ w, decode s.buf = .needMore w → t = { s with ret := some (.verdict .needMore) }) ∧
    (∀ i, decode s.buf = .noiseByte i → t.ret = some (.verdict .noiseByte) ∧ t.buf = s.buf.drop 1 ∧ t.out = s.out ∧
      exec i s = .next { t with ret := s.ret }) ∧
    (∀ len i, decode s.buf = .frame len i → t.ret = some (.verdict .frame) ∧ t.buf = s.buf.drop len ∧
      t.noise = .closed ∧ len ≤ s.buf.length ∧ 5 ≤ len ∧ exec i s = .next { t with ret := s.ret })

/-- R92, R94, R96, R98: the 8-byte read requests, byte by byte: 16-bit fields high byte first (the rules' `be16`, whose order is the
spec's decision D5), the checksum of the first six bytes
low byte first; below 8 bytes the block waits. -/
def Obligations.ReadRequestsOnTheWire : Prop :=
  ∀ s (u fc a1 a0 q1 q0 lo hi : Byte) (rest : List Byte), fc ∈ ([1, 2, 3, 4] : List Byte) →
    (s.buf = u :: fc :: a1 :: a0 :: q1 :: q0 :: lo :: hi :: rest →
      lo = lowByte (checksum [u, fc, a1, a0, q1, q0] 6) → hi = highByte (checksum [u, fc, a1, a0, q1, q0] 6) →
        step s = .next (afterFrame 8 (.request u fc (.addrQty (pack a1 a0) (pack q1 q0))) s)) ∧
    (s.buf[1]? = some fc → 3 ≤ s.buf.length → s.buf.length < 8 → decode s.buf = .needMore .requestShape)

/-- R100, R101: function code 5 on 8 bytes at the front: the request if the checksum of six bytes follows them, else the 6-byte
response without data echo if the checksum of four bytes follows them, else one noise byte; below 8 bytes the block waits. -/
def Obligations.SingleCoilWriteOnTheWire : Prop :=
  ∀ s (u a1 a0 d1 d0 lo hi : Byte) (rest : List Byte),
    (s.buf = u :: 0x05 :: a1 :: a0 :: d1 :: d0 :: lo :: hi :: rest →
      (le16Bytes (checksum [u, 0x05, a1, a0, d1, d0] 6) = [lo, hi] →
        step s = .next (afterFrame 8 (.request u 0x05 (.addrData (pack a1 a0) (pack d1 d0))) s)) ∧
      (le16Bytes (checksum [u, 0x05, a1, a0, d1, d0] 6) ≠ [lo, hi] → le16Bytes (checksum [u, 0x05, a1, a0] 4) = [d1, d0] →
        step s = .next (afterFrame 6 (.response u 0x05 (.addrOnly (pack a1 a0))) s)) ∧
      (le16Bytes (checksum [u, 0x05, a1, a0, d1, d0] 6) ≠ [lo, hi] → le16Bytes (checksum [u, 0x05, a1, a0] 4) ≠ [d1, d0] →
        step s = .next { s with buf := s.buf.drop 1, noise := s.noise.push u })) ∧
    (s.buf[1]? = some 0x05 → 3 ≤ s.buf.length → s.buf.length < 8 → decode s.buf = .needMore .requestShape)

/-- R102 (decision D6 for the fields): function code 6 on 8 bytes at the front: the request if the checksum of six bytes follows
them, else one noise byte, the response shape having the same length (R103, R112 (a)); below 8 bytes the block waits. -/
def Obligations.SingleRegisterWriteOnTheWire : Prop :=
  ∀ s (u a1 a0 d1 d0 lo hi : Byte) (rest : List Byte),
    (s.buf = u :: 0x06 :: a1 :: a0 :: d1 :: d0 :: lo :: hi :: rest →
      (le16Bytes (checksum [u, 0x06, a1, a0, d1, d0] 6) = [lo, hi] →
        step s = .next (afterFrame 8 (.request u 0x06 (.addrData (pack a1 a0) (pack d1 d0))) s)) ∧
      (le16Bytes (checksum [u, 0x06, a1, a0, d1, d0] 6) ≠ [lo, hi] →
        step s = .next { s with buf := s.buf.drop 1, noise := s.noise.push u })) ∧
    (s.buf[1]? = some 0x06 → 3 ≤ s.buf.length → s.buf.length < 8 → decode s.buf = .needMore .requestShape)

/-- R104, R106, R108: the variable-length requests, their wire bytes at the front of `BUF` and anything behind them; until the count
byte is there, and then until the bytes it asks for are there, the block waits. -/
def Obligations.VariableRequestsOnTheWire : Prop :=
  ∀ s (u c : Byte) (x y z w : U16) (d rest : List Byte), d.length = c.toNat →
    (s.buf = frame ([u, 0x0F] ++ be16Bytes x ++ be16Bytes y ++ [c] ++ d) ++ rest →
      step s = .next (afterFrame (9 + c.toNat) (.request u 0x0F (.addrQtyPayload x y c d)) s)) ∧
    (s.buf = frame ([u, 0x10] ++ be16Bytes x ++ be16Bytes y ++ [c] ++ d) ++ rest →
      step s = .next (afterFrame (9 + c.toNat) (.request u 0x10 (.addrQtyPayload x y c d)) s)) ∧
    (s.buf = frame ([u, 0x17] ++ be16Bytes x ++ be16Bytes y ++ be16Bytes z ++ be16Bytes w ++ [c] ++ d) ++ rest →
      step s = .next (afterFrame (13 + c.toNat) (.request u 0x17 (.readWrite x y z w c d)) s)) ∧
    (∀ fc ∈ ([0x0F, 0x10] : List Byte), s.buf[1]? = some fc → 3 ≤ s.buf.length →
      s.buf.length < 7 ∨ (∃ n : Byte, s.buf[6]? = some n ∧ s.buf.length < 9 + n.toNat) →
        decode s.buf = .needMore .requestShape) ∧
    (s.buf[1]? = some 0x17 → 3 ≤ s.buf.length →
      s.buf.length < 11 ∨ (∃ n : Byte, s.buf[10]? = some n ∧ s.buf.length < 13 + n.toNat) →
        decode s.buf = .needMore .requestShape)

/-- R93, R95, R97, R99: the read responses, their wire bytes at the front of `BUF`, at least 8 bytes there and the request test on
the first 8 failing. -/
def Obligations.ReadResponsesOnTheWire : Prop :=
  ∀ s (u fc c : Byte) (d rest : List Byte), fc ∈ ([1, 2, 3, 4] : List Byte) → d.length = c.toNat →
    s.buf = frame ([u, fc, c] ++ d) ++ rest → 8 ≤ s.buf.length → crcMatches s.buf 8 = false →
      step s = .next (afterFrame (5 + c.toNat) (.response u fc (.payload c d)) s)

/-- R105, R107 (decision D6 for the fields of code 16), R109: the responses of function codes 15, 16 and 23, their wire bytes at the
front of `BUF`, once the request shape of the same code is fully there and its checksum test fails. -/
def Obligations.WriteResponsesOnTheWire : Prop :=
  ∀ s (u c n : Byte) (x y : U16) (d rest : List Byte),
    (∀ fc ∈ ([0x0F, 0x10] : List Byte), s.buf = frame ([u, fc] ++ be16Bytes x ++ be16Bytes y) ++ rest →
      s.buf[6]? = some n → 9 + n.toNat ≤ s.buf.length → crcMatches s.buf (9 + n.toNat) = false →
        step s = .next (afterFrame 8 (.response u fc (.addrQty x y)) s)) ∧
    (d.length = c.toNat → s.buf = frame ([u, 0x17, c] ++ d) ++ rest →
      s.buf[10]? = some n → 13 + n.toNat ≤ s.buf.length → crcMatches s.buf (13 + n.toNat) = false →
        5 + c.toNat ≤ s.buf.length ∧ step s = .next (afterFrame (5 + c.toNat) (.response u 0x17 (.payload c d)) s))

/-- R112 (a), R103: no bytes decode to FC06_RSP, and no step emits a Response with function code 6. -/
def Obligations.CodeSixIsNeverAResponse : Prop :=
  (∀ (b : List Byte) (len : Nat) (u : Byte) (x y : U16), decode b ≠ .frame len (.fc06Rsp u x y)) ∧
  (∀ s t u fields, step s = .next t → Event.frame (.response u 0x06 fields) ∈ t.out →
    Event.frame (.response u 0x06 fields) ∈ s.out)

/-- R112 (b), R215: a valid read response of 3 data bytes is emitted as a Request. -/
def Obligations.ThreeByteReadResponseIsARequest : Prop :=
  ∀ s (u fc d0 d1 d2 : Byte) (rest : List Byte), fc ∈ ([1, 2, 3, 4] : List Byte) →
    s.buf = frame [u, fc, 3, d0, d1, d2] ++ rest →
      step s = .next (afterFrame 8 (.request u fc (.addrQty (pack 3 d0) (pack d1 d2))) s)

/-! ### DRAIN and INGEST -/

/-- R121: `DRAIN` is `STEP` again and again until it returns NEED_MORE; it returns no value itself. -/
def Obligations.DrainRepeatsStep : Prop :=
  ∀ s t v, exec .step s = .next t → t.ret = some (.verdict v) →
    (v = .needMore → exec .drain s = .next { t with ret := s.ret }) ∧
    (v ≠ .needMore → exec .drain s = exec .drain { t with ret := s.ret })

/-- R131: `DRAIN` completes from every state, ends where a step waits, keeps the scratch, the return value and the calls. -/
def Obligations.DrainEndsWaiting : Prop :=
  ∀ s, ∃ t, exec .drain s = .next t ∧ awaitingBytes t = true ∧ t.crc = s.crc ∧ t.ret = s.ret ∧ t.calls = s.calls

/-- R120: `INGEST` completes from every state and for every chunk; the whole chunk is appended before any decoding, and the call
ends where a step waits. -/
def Obligations.IngestAppendsThenDrains : Prop :=
  ∀ s chunk, ∃ t, exec (.ingest chunk) s = .next t ∧ exec .drain { s with buf := s.buf ++ chunk } = .next t ∧
    awaitingBytes t = true ∧ t.crc = s.crc ∧ t.ret = s.ret ∧ t.calls = s.calls

/-- R132, R213: the empty chunk changes nothing where the block waits, and after reset and after every `INGEST` it waits. -/
def Obligations.EmptyChunkChangesNothing : Prop :=
  (∀ s, awaitingBytes s = true → exec (.ingest []) s = .next s) ∧
  exec (.ingest []) State.reset = .next State.reset ∧
  (∀ s chunk t, exec (.ingest chunk) s = .next t → exec (.ingest []) t = .next t)

/-- R210: at most 267 bytes stay when `INGEST` has returned; fed one byte at a time, the block never holds more than 268. -/
def Obligations.BufferBoundAfterIngest : Prop :=
  ∀ s chunk t, exec (.ingest chunk) s = .next t → t.buf.length ≤ 267 ∧ ∀ b : Byte, (t.buf ++ [b]).length ≤ 268

/-- R135: a verdict other than NEED_MORE does not change when bytes are added. -/
def Obligations.MoreBytesKeepTheVerdict : Prop :=
  ∀ x y : List Byte, (decode x).waits = false → decode (x ++ y) = decode x

/-- R133: any splitting of the bytes into chunks, empty ones among them, leaves the same state and the same events as one chunk,
from any state. -/
def Obligations.ChunkBoundariesDoNotMatter : Prop :=
  ∀ s (chunks : List (List Byte)), chunks ≠ [] →
    ∃ t, ingestAll chunks s = .next t ∧ exec (.ingest chunks.flatten) s = .next t

/-! ### Invariants of every step -/

/-- R134, R25 (c), R161: events, open run and `BUF`, in that order, followed by what the host's queued calls still deliver, are the
same bytes after every step; an `INGEST` adds exactly its chunk. -/
def Obligations.EveryByteIsAccountedFor : Prop :=
  (∀ s t, step s = .next t → accounted t ++ undelivered t = accounted s ++ undelivered s) ∧
  (∀ s chunk t, exec (.ingest chunk) s = .next t → accounted t = accounted s ++ chunk)

/-- R25 (b), R151, R159: every step keeps an open run non-empty, every NoiseRun event non-empty and directly followed by a frame
event. -/
def Obligations.StepKeepsRunInvariant : Prop :=
  ∀ s t, s.Inv → step s = .next t → t.Inv

/-- R170: with the host's calls in their contract no step stops, and the next state's calls are in their contract again. -/
def Obligations.StepNeverStopsInContract : Prop :=
  ∀ s, s.callsInContract = true → ∃ t, step s = .next t ∧ t.callsInContract = true

/-- R150: `OUT` only grows at its end. -/
def Obligations.OutputOnlyGrows : Prop :=
  ∀ s t, step s = .next t → ∃ evs, t.out = s.out ++ evs

/-- R158, R16: an open run is only ever extended at its end, until the recognition of a frame closes and emits it directly before
that frame. -/
def Obligations.OpenRunPersistsUntilAFrame : Prop :=
  ∀ s t q, s.noise = .opened q → step s = .next t →
    ∃ more, (t.out = s.out ∧ t.noise = .opened (q ++ more)) ∨
      (∃ f evs, t.out = s.out ++ .noiseRun (q ++ more) :: .frame f :: evs)

/-- R137, R13, R24: what an `INGEST` does to `BUF` and `NOISE` and which events it emits depend on `BUF`, `NOISE` and the chunk
alone, not on earlier events, the scratch or anything else. -/
def Obligations.ClassificationForgetsHistory : Prop :=
  ∀ s s' chunk t t', s.buf = s'.buf → s.noise = s'.noise →
    exec (.ingest chunk) s = .next t → exec (.ingest chunk) s' = .next t' →
      t.buf = t'.buf ∧ t.noise = t'.noise ∧ ∃ evs, t.out = s.out ++ evs ∧ t'.out = s'.out ++ evs

/-! ### Fetch, decode, encode -/

/-- A step runs the decoded instruction; where the front waits it serves the next host call, and with no call it idles (log
entries 1 and 6: the model's choice of what one step is). -/
def Obligations.StepRunsTheDecodedInstruction : Prop :=
  ∀ s, (∀ len i, decode s.buf = .frame len i → step s = exec i s) ∧
    (∀ i, decode s.buf = .noiseByte i → step s = exec i s) ∧
    (∀ w chunk rest, decode s.buf = .needMore w → s.calls = .ingest chunk :: rest →
      step s = exec (.ingest chunk) { s with calls := rest }) ∧
    (∀ w bytes n rest, decode s.buf = .needMore w → s.calls = .checksum bytes n :: rest →
      step s = exec (.checksum bytes n) { s with calls := rest }) ∧
    (∀ w, decode s.buf = .needMore w → s.calls = [] → step s = .next s)

/-- Words written out from R51 and the vectors of `95_test_vectors.md` decode to the instructions they stand for. -/
def Obligations.WrittenOutWordsDecode : Prop :=
  decode [0x11, 0x01, 0x00, 0x13, 0x00, 0x25, 0x0E, 0x84] = .frame 8 (.fc01Req 0x11 0x0013 0x0025) ∧
  decode [0x11, 0x05, 0x00, 0xAC, 0xFF, 0x00, 0x4E, 0x8B] = .frame 8 (.fc05Req 0x11 0x00AC 0xFF00) ∧
  decode [0x11, 0x0F, 0x00, 0x13, 0x00, 0x0A, 0x02, 0xCD, 0x01, 0xBF, 0x0B] =
    .frame 11 (.fc15Req 0x11 0x0013 0x000A 2 [0xCD, 0x01]) ∧
  decode [0x01, 0x83, 0x02, 0xC0, 0xF1] = .frame 5 (.exc 0x01 0x83 0x02) ∧
  decode [0x11, 0x07, 0x00] = .noiseByte (.unknownFc 0x11 0x07)

/-- Decode after encode, for every well-formed frame instruction and any bytes behind it: the instruction itself, with its length.
A response needs what the block needs: that the request shape of its code is testable and mismatches on these bytes (R127). -/
def Obligations.DecodeOfEncodeIsTheInstruction : Prop :=
  ∀ (i : Instr) (sh : Shape) (bs rest : List Byte), i.wf = true → i.shape? = some sh → encode i = some bs →
    (∀ req, sh.requestOf = some req → tryShape req (bs ++ rest) = .mismatch) →
      decode (bs ++ rest) = .frame bs.length i

/-- Encode after decode: a recognised frame is a well-formed instruction whose wire bytes are exactly the bytes consumed. -/
def Obligations.EncodeOfDecodeIsTheBytes : Prop :=
  ∀ (b : List Byte) (len : Nat) (i : Instr), decode b = .frame len i →
    i.wf = true ∧ len ≤ b.length ∧ encode i = some (b.take len)

/-- R160: the event of a recognised frame is a well-formed one whose wire bytes are exactly the bytes consumed. -/
def Obligations.EventDeterminesItsBytes : Prop :=
  ∀ s (len : Nat) (i : Instr), decode s.buf = .frame len i →
    ∃ ev, exec i s = .next (afterFrame len ev s) ∧ ev.wf = true ∧ Event.wireBytes (.frame ev) = s.buf.take len

/-! ### The host's side -/

/-- R187: the driver's reads, delivered to a waiting block and served one a step, are the `INGEST` calls of those reads in order. -/
def Obligations.DriverReadsAreIngested : Prop :=
  ∀ s (reads : List (List Byte)), awaitingBytes s = true → s.calls = [] →
    Host.Core.run core reads.length (s.deliver reads) = ingestAll reads s

/-- R186, over exact reals (decision D16): `33 / B` below 19200, strictly, 0.00175 from there on, and that alone; nothing for
`B <= 0`. -/
def Obligations.SilenceTimeoutFormula : Prop :=
  ∀ (b : Config.Baud) (t : ℝ), (0 < b → b < 19200 → (IsSilenceTimeout b t ↔ t = 33 / b)) ∧
    (19200 ≤ b → (IsSilenceTimeout b t ↔ t = 0.00175)) ∧ (b ≤ 0 → ¬ IsSilenceTimeout b t)

/-- R190: a step of one instance changes no other instance, and does to its own what it does alone. -/
def Obligations.InstancesAreIndependent : Prop :=
  ∀ (k : Nat) (fleet fleet' : List State), stepInstance k fleet = .next fleet' →
    fleet'.length = fleet.length ∧ (∀ j, j ≠ k → fleet'[j]? = fleet[j]?) ∧
      ∃ s t, fleet[k]? = some s ∧ step s = .next t ∧ fleet'[k]? = some t

/-- R186 at a rational rate, where the formula can be evaluated (the model's own function, log entry 9): its values, and that it
gives exactly the timeout the formula over reals has there. -/
def Obligations.EvaluatedSilenceTimeoutAgrees : Prop :=
  (∀ b : ℚ, (0 < b → b < 19200 → silenceTimeout b = some (33 / b)) ∧
    (19200 ≤ b → silenceTimeout b = some 0.00175) ∧ (b ≤ 0 → silenceTimeout b = none)) ∧
  (∀ b t : ℚ, silenceTimeout b = some t ↔ IsSilenceTimeout (b : ℝ) (t : ℝ))
end

