-- ==== Sys2Proof/Laws/Operands.lean ====
section
/-! SUPPORT. The byte orders, the checksum field, the length resolution: one spec lemma each. -/

namespace Sys2Proof.Machine

/-- `{h, l}` bit by bit (R9). -/
theorem pack_getLsbD (h l : Byte) (i : Nat) :
    (pack h l).getLsbD i = if i < 8 then l.getLsbD i else h.getLsbD (i - 8) :=
  BitVec.getLsbD_append

@[simp] theorem highByte_pack (h l : Byte) : highByte (pack h l) = h := by
  apply BitVec.eq_of_getLsbD_eq
  intro i hi
  simp [highByte, pack_getLsbD, hi]

@[simp] theorem lowByte_pack (h l : Byte) : lowByte (pack h l) = l := by
  apply BitVec.eq_of_getLsbD_eq
  intro i hi
  simp [lowByte, pack_getLsbD, hi]

@[simp] theorem pack_bytes (c : U16) : pack (highByte c) (lowByte c) = c := by
  apply BitVec.eq_of_getLsbD_eq
  intro i hi
  rw [pack_getLsbD]
  split
  · rename_i h; simp [lowByte, h]
  · rename_i h
    have h1 : i - 8 < 8 := by omega
    have h2 : 8 + (i - 8) = i := by omega
    simp [highByte, h1, h2]

@[simp] theorem be16Bytes_length (v : U16) : (be16Bytes v).length = 2 := rfl

@[simp] theorem le16Bytes_length (v : U16) : (le16Bytes v).length = 2 := rfl

theorem pack_eq_iff {h l : Byte} {c : U16} : pack h l = c ↔ h = highByte c ∧ l = lowByte c := by
  constructor
  · rintro rfl; simp
  · rintro ⟨rfl, rfl⟩; simp

/-- A big-endian field is there exactly when its two wire bytes are. -/
theorem be16At_eq_some {b : List Byte} {o : Nat} {v : U16} :
    be16At b o = some v ↔ b[o]? = some (highByte v) ∧ b[o + 1]? = some (lowByte v) := by
  unfold be16At
  cases h : b[o]? <;> cases l : b[o + 1]? <;> simp [pack_eq_iff]

/-- The checksum field is there exactly when its two wire bytes are, low byte first. -/
theorem le16At_eq_some {b : List Byte} {o : Nat} {v : U16} :
    le16At b o = some v ↔ b[o]? = some (lowByte v) ∧ b[o + 1]? = some (highByte v) := by
  unfold le16At
  cases l : b[o]? <;> cases h : b[o + 1]? <;> simp [pack_eq_iff, and_comm]

theorem checksum_append {b y : List Byte} {n : Nat} (h : n ≤ b.length) : checksum (b ++ y) n = checksum b n := by
  simp [checksum, List.take_append_of_le_length h]

@[simp] theorem frame_length (body : List Byte) : (frame body).length = body.length + 2 := by simp [frame]

/-- The test of `CRC_CHECK` on a body succeeds exactly when the body's checksum follows it (R77). -/
theorem crcMatches_body {body rest : List Byte} :
    crcMatches (body ++ rest) (body.length + 2) = true ↔
      ∃ r, rest = le16Bytes (checksum body body.length) ++ r := by
  simp only [crcMatches, csumBytes, Nat.add_sub_cancel, beq_iff_eq, le16At_eq_some, checksum_append (Nat.le_refl _)]
  match rest with
  | [] => simp [le16Bytes]
  | [x] => simp [le16Bytes]
  | x :: y :: r => simp [le16Bytes]

@[simp] theorem crcMatches_frame (body rest : List Byte) :
    crcMatches (frame body ++ rest) (body.length + 2) = true := by
  simp [frame, List.append_assoc, crcMatches_body]

/-- More bytes do not change the checksum test of a length that is there (R135). -/
theorem crcMatches_append {b y : List Byte} {len : Nat} (h : len ≤ b.length) (h2 : 2 ≤ len) :
    crcMatches (b ++ y) len = crcMatches b len := by
  have e1 : (b ++ y)[len - 2]? = b[len - 2]? := List.getElem?_append_left (by omega)
  have e2 : (b ++ y)[len - 2 + 1]? = b[len - 2 + 1]? := List.getElem?_append_left (by omega)
  simp [crcMatches, csumBytes, le16At, e1, e2, checksum_append (show len - 2 ≤ b.length by omega)]

/-- A resolved length is there. -/
theorem need_le {l : Layout} {b : List Byte} {len : Nat} (h : need l b = some len) : len ≤ b.length := by
  cases l with
  | fixed n => simp only [need] at h; split at h <;> simp_all
  | counted co pre =>
    simp only [need] at h
    split at h
    · simp at h
    · split at h <;> simp_all

/-- A fixed length is not there exactly when the bytes are fewer. -/
theorem need_fixed_eq_none {len : Nat} {b : List Byte} : need (.fixed len) b = none ↔ b.length < len := by
  simp [need]

/-- A counted length is not there exactly when the count byte is not, or fewer bytes than it says. -/
theorem need_counted_eq_none {off pre : Nat} {b : List Byte} :
    need (.counted off pre) b = none ↔ ∀ n, b[off]? = some n → b.length < pre + n.toNat + 2 := by
  simp only [need]
  split
  · rename_i h
    simp [h]
  · rename_i c h
    simp only [h, Option.some.injEq, forall_eq']
    refine ⟨fun hn => Nat.lt_of_not_le fun hl => ?_, fun hl => if_neg (Nat.not_le.mpr hl)⟩
    exact absurd ((if_pos hl).symm.trans hn) (by simp)

/-- More bytes do not change a resolved length (R135). -/
theorem need_append {l : Layout} {b : List Byte} {len : Nat} (h : need l b = some len) (y : List Byte) :
    need l (b ++ y) = some len := by
  cases l with
  | fixed n => simp only [need] at h ⊢; split at h <;> simp_all; omega
  | counted co pre =>
    simp only [need] at h
    split at h
    · simp at h
    · rename_i c hc
      have hlt : co < b.length := (List.getElem?_eq_some_iff.mp hc).1
      split at h <;> simp_all [need, List.getElem?_append_left hlt]
      omega

/-- Every resolved length of a shape is at least 5 and at most 268 (R50). -/
theorem need_bounds {sh : Shape} {b : List Byte} {len : Nat} (h : need sh.layout b = some len) :
    5 ≤ len ∧ len ≤ 268 := by
  have key : ∀ co pre, need (.counted co pre) b = some len → pre + 2 ≤ len ∧ len ≤ pre + 257 := by
    intro co pre h
    simp only [need] at h
    split at h
    · simp at h
    · rename_i c _
      have := c.isLt
      split at h <;> simp [csumBytes] at h
      omega
  have fix : ∀ n, need (.fixed n) b = some len → len = n := by
    intro n h; simp only [need] at h; split at h <;> simp_all
  cases sh <;> simp only [Shape.layout, Shape.format, Format.layout, excLen] at h <;>
    first
    | (have := fix _ h; omega)
    | (have := key _ _ h; omega)

/-- A shape whose length is not there leaves at most 267 bytes: the longest shape has 268. -/
theorem need_none_length {sh : Shape} {b : List Byte} (h : need sh.layout b = none) : b.length ≤ 267 := by
  have fixed : ∀ len, len ≤ 268 → need (.fixed len) b = none → b.length ≤ 267 := by
    intro len hl hn
    have := need_fixed_eq_none.mp hn
    omega
  have counted : ∀ off pre, off < 268 → pre ≤ 11 → need (.counted off pre) b = none → b.length ≤ 267 := by
    intro off pre ho hp hn
    by_contra hc
    have ho' : off < b.length := by omega
    have := need_counted_eq_none.mp hn _ (List.getElem?_eq_getElem ho')
    have := b[off].isLt
    omega
  cases sh <;> first
    | exact fixed _ (by decide) h
    | exact counted _ _ (by decide) (by decide) h

end Sys2Proof.Machine
end

