-- ==== Sys2Proof/Laws/Decode.lean ====
section
/-! SUPPORT. The decoder: one spec lemma per reader, what a shape test says of the bytes (both directions), and that more bytes do
not change a verdict of it (R135). -/

namespace Sys2Proof

open Machine

/-! ### Readers: a format's fields are read exactly when the bytes are laid out as R51 says -/

theorem readAQ_eq_some {b : List Byte} {u : Byte} {x y : U16} :
    readAQ b = some (u, x, y) ↔ ∃ fc r, b = bodyTwo u fc x y ++ r := by
  match b with
  | [] | [_] | [_, _] | [_, _, _] | [_, _, _, _] | [_, _, _, _, _] => simp [readAQ, be16At, bodyTwo, be16Bytes]
  | b0 :: b1 :: b2 :: b3 :: b4 :: b5 :: r => 
    simp [readAQ, be16At, bodyTwo, be16Bytes, pack_eq_iff]; tauto

theorem readAD_eq_readAQ : readAD = readAQ := rfl

theorem readA_eq_some {b : List Byte} {u : Byte} {x : U16} :
    readA b = some (u, x) ↔ ∃ fc r, b = (u :: fc :: be16Bytes x) ++ r := by
  match b with
  | [] | [_] | [_, _] | [_, _, _] => simp [readA, be16At, be16Bytes]
  | b0 :: b1 :: b2 :: b3 :: r => simp [readA, be16At, be16Bytes, pack_eq_iff]

theorem readE5_eq_some {b : List Byte} {u f c : Byte} :
    readE5 b = some (u, f, c) ↔ ∃ r, b = [u, f, c] ++ r := by
  match b with
  | [] | [_] | [_, _] => simp [readE5]
  | b0 :: b1 :: b2 :: r => simp [readE5]

/-- A payload after a prefix is read exactly when its bytes follow the prefix (R32). -/
theorem memRead_eq_some {pre r data : List Byte} {off n : Nat} (h : pre.length = off) :
    memRead (pre ++ r) off n = some data ↔ ∃ r', r = data ++ r' ∧ data.length = n := by
  subst h
  simp only [memRead, List.length_append, Nat.add_le_add_iff_left, List.drop_left]
  constructor
  · intro h
    split at h
    · rename_i hn
      simp only [Option.some.injEq] at h
      subst h
      exact ⟨r.drop n, by simp, by simp [hn]⟩
    · simp at h
  · rintro ⟨r', rfl, rfl⟩
    simp

theorem readV3_eq_some {b : List Byte} {u c : Byte} {data : List Byte} :
    readV3 b = some (u, c, data) ↔ ∃ fc r, b = bodyV3 u fc c data ++ r ∧ data.length = c.toNat := by
  match b with
  | [] | [_] | [_, _] => simp [readV3, bodyV3]
  | b0 :: b1 :: b2 :: r =>
    have key := @memRead_eq_some [b0, b1, b2] r data 3 b2.toNat rfl
    simp only [readV3, bodyV3, List.cons_append, List.nil_append, List.getElem?_cons_zero, List.getElem?_cons_succ,
      Option.bind_eq_bind, Option.bind_some, Option.bind_eq_some_iff, Option.some.injEq, Prod.mk.injEq] at key ⊢
    constructor
    · rintro ⟨d, hd, rfl, rfl, rfl⟩
      obtain ⟨r', rfl, hl⟩ := key.mp hd
      exact ⟨b1, r', rfl, hl⟩
    · rintro ⟨fc, r', h, hl⟩
      obtain ⟨rfl, rfl, rfl, rfl⟩ : b0 = u ∧ b1 = fc ∧ b2 = c ∧ r = data ++ r' := by simpa using h
      exact ⟨data, key.mpr ⟨r', rfl, hl⟩, rfl, rfl, rfl⟩

theorem readV7_eq_some {b : List Byte} {u c : Byte} {x y : U16} {data : List Byte} :
    readV7 b = some (u, x, y, c, data) ↔ ∃ fc r, b = bodyV7 u fc x y c data ++ r ∧ data.length = c.toNat := by
  match b with
  | [] | [_] | [_, _] | [_, _, _] | [_, _, _, _] | [_, _, _, _, _] | [_, _, _, _, _, _] =>
    simp [readV7, bodyV7, be16At, be16Bytes]
  | b0 :: b1 :: b2 :: b3 :: b4 :: b5 :: b6 :: r =>
    have key := @memRead_eq_some [b0, b1, b2, b3, b4, b5, b6] r data 7 b6.toNat rfl
    simp only [readV7, bodyV7, be16At, be16Bytes, List.cons_append, List.nil_append, List.getElem?_cons_zero,
      List.getElem?_cons_succ, Nat.reduceAdd,
      Option.bind_eq_bind, Option.bind_some, Option.bind_eq_some_iff, Option.some.injEq, Prod.mk.injEq, pack_eq_iff] at key ⊢
    constructor
    · rintro ⟨d, hd, rfl, ⟨rfl, rfl⟩, ⟨rfl, rfl⟩, rfl, rfl⟩
      obtain ⟨r', rfl, hl⟩ := key.mp hd
      exact ⟨b1, r', by simp, hl⟩
    · rintro ⟨fc, r', h, hl⟩
      simp only [List.cons.injEq] at h
      obtain ⟨rfl, rfl, rfl, rfl, rfl, rfl, rfl, rfl⟩ := h
      exact ⟨data, key.mpr ⟨r', rfl, hl⟩, by simp⟩

theorem readV11_eq_some {b : List Byte} {u c : Byte} {x y z w : U16} {data : List Byte} :
    readV11 b = some (u, x, y, z, w, c, data) ↔
      ∃ fc r, b = bodyV11 u fc x y z w c data ++ r ∧ data.length = c.toNat := by
  match b with
  | [] | [_] | [_, _] | [_, _, _] | [_, _, _, _] | [_, _, _, _, _] | [_, _, _, _, _, _] | [_, _, _, _, _, _, _]
  | [_, _, _, _, _, _, _, _] | [_, _, _, _, _, _, _, _, _] | [_, _, _, _, _, _, _, _, _, _] =>
    simp [readV11, bodyV11, be16At, be16Bytes]
  | b0 :: b1 :: b2 :: b3 :: b4 :: b5 :: b6 :: b7 :: b8 :: b9 :: b10 :: r =>
    have key := @memRead_eq_some [b0, b1, b2, b3, b4, b5, b6, b7, b8, b9, b10] r data 11 b10.toNat rfl
    simp only [readV11, bodyV11, be16At, be16Bytes, List.cons_append, List.nil_append, List.getElem?_cons_zero,
      List.getElem?_cons_succ, Nat.reduceAdd,
      Option.bind_eq_bind, Option.bind_some, Option.bind_eq_some_iff, Option.some.injEq, Prod.mk.injEq, pack_eq_iff] at key ⊢
    constructor
    · rintro ⟨d, hd, rfl, ⟨rfl, rfl⟩, ⟨rfl, rfl⟩, ⟨rfl, rfl⟩, ⟨rfl, rfl⟩, rfl, rfl⟩
      obtain ⟨r', rfl, hl⟩ := key.mp hd
      exact ⟨b1, r', by simp, hl⟩
    · rintro ⟨fc, r', h, hl⟩
      simp only [List.cons.injEq] at h
      obtain ⟨rfl, rfl, rfl, rfl, rfl, rfl, rfl, rfl, rfl, rfl, rfl, rfl⟩ := h
      exact ⟨data, key.mpr ⟨r', rfl, hl⟩, by simp⟩

/-! ### The instruction of a shape and the bytes of its body -/

/-- The bytes of a well-formed instruction's body are read back as that instruction (R51). -/
theorem buildFrame_body {i : Instr} {sh : Shape} {body : List Byte} (hs : i.shape? = some sh) (hw : i.wf = true)
    (hb : bodyOf i = some body) (r : List Byte) : buildFrame sh (body ++ r) = some i := by
  cases i <;> simp only [Instr.shape?, Option.some.injEq, reduceCtorEq] at hs <;> subst hs <;>
    simp only [bodyOf, Option.some.injEq] at hb <;> subst hb <;> simp only [Instr.wf, beq_iff_eq] at hw <;>
    simp only [buildFrame, Option.map_eq_some_iff, Prod.exists]
  case fc01Req u x y | fc02Req u x y | fc03Req u x y | fc04Req u x y | fc15Rsp u x y | fc16Rsp u x y =>
    exact ⟨u, x, y, readAQ_eq_some.mpr ⟨_, r, rfl⟩, rfl⟩
  case fc05Req u x y | fc06Req u x y | fc06Rsp u x y => exact ⟨u, x, y, readAQ_eq_some.mpr ⟨_, r, rfl⟩, rfl⟩
  case fc05Rsp u x => exact ⟨u, x, readA_eq_some.mpr ⟨_, r, rfl⟩, rfl⟩
  case fc01Rsp u c d | fc02Rsp u c d | fc03Rsp u c d | fc04Rsp u c d | fc23Rsp u c d =>
    exact ⟨u, c, d, readV3_eq_some.mpr ⟨_, r, rfl, hw⟩, rfl⟩
  case fc15Req u x y c d | fc16Req u x y c d => exact ⟨u, x, y, c, d, readV7_eq_some.mpr ⟨_, r, rfl, hw⟩, rfl⟩
  case fc23Req u x y z w c d => exact ⟨u, x, y, z, w, c, d, readV11_eq_some.mpr ⟨_, r, rfl, hw⟩, rfl⟩
  case exc u f c => exact ⟨u, f, c, readE5_eq_some.mpr ⟨r, rfl⟩, rfl⟩

/-- What is read at the front of the bytes is a well-formed instruction of the shape, and the bytes begin with its body. -/
theorem buildFrame_eq_some {sh : Shape} {b : List Byte} {fc : Byte} {i : Instr} (h1 : b[1]? = some fc)
    (hf : sh.selectedBy fc = true) (h : buildFrame sh b = some i) :
    i.shape? = some sh ∧ i.wf = true ∧ ∃ body r, bodyOf i = some body ∧ b = body ++ r := by
  cases sh <;> simp only [buildFrame, Option.map_eq_some_iff, Prod.exists] at h <;>
    simp only [Shape.selectedBy, beq_iff_eq] at hf
  case fc01Req | fc02Req | fc03Req | fc04Req | fc15Rsp | fc16Rsp | fc05Req | fc06Req | fc06Rsp =>
    obtain ⟨u, x, y, hr, rfl⟩ := h
    obtain ⟨fc', r, rfl⟩ := readAQ_eq_some.mp hr
    simp only [bodyTwo, List.cons_append, List.getElem?_cons_succ, List.getElem?_cons_zero, Option.some.injEq] at h1
    subst h1 hf
    exact ⟨rfl, rfl, _, r, rfl, rfl⟩
  case fc05Rsp =>
    obtain ⟨u, x, hr, rfl⟩ := h
    obtain ⟨fc', r, rfl⟩ := readA_eq_some.mp hr
    simp only [List.cons_append, List.getElem?_cons_succ, List.getElem?_cons_zero, Option.some.injEq] at h1
    subst h1 hf
    exact ⟨rfl, rfl, _, r, rfl, rfl⟩
  case fc01Rsp | fc02Rsp | fc03Rsp | fc04Rsp | fc23Rsp =>
    obtain ⟨u, c, d, hr, rfl⟩ := h
    obtain ⟨fc', r, rfl, hl⟩ := readV3_eq_some.mp hr
    simp only [bodyV3, List.cons_append, List.getElem?_cons_succ, List.getElem?_cons_zero, Option.some.injEq] at h1
    subst h1 hf
    exact ⟨rfl, by simpa [Instr.wf] using hl, _, r, rfl, rfl⟩
  case fc15Req | fc16Req =>
    obtain ⟨u, x, y, c, d, hr, rfl⟩ := h
    obtain ⟨fc', r, rfl, hl⟩ := readV7_eq_some.mp hr
    simp only [bodyV7, List.cons_append, List.getElem?_cons_succ, List.getElem?_cons_zero, Option.some.injEq] at h1
    subst h1 hf
    exact ⟨rfl, by simpa [Instr.wf] using hl, _, r, rfl, rfl⟩
  case fc23Req =>
    obtain ⟨u, x, y, z, w, c, d, hr, rfl⟩ := h
    obtain ⟨fc', r, rfl, hl⟩ := readV11_eq_some.mp hr
    simp only [bodyV11, List.cons_append, List.getElem?_cons_succ, List.getElem?_cons_zero, Option.some.injEq] at h1
    subst h1 hf
    exact ⟨rfl, by simpa [Instr.wf] using hl, _, r, rfl, rfl⟩
  case exc =>
    obtain ⟨u, f, c, hr, rfl⟩ := h
    obtain ⟨r, rfl⟩ := readE5_eq_some.mp hr
    simp only [List.cons_append, List.getElem?_cons_succ, List.getElem?_cons_zero, Option.some.injEq] at h1
    subst h1
    exact ⟨rfl, hf, _, r, rfl, rfl⟩

/-- More bytes do not change what is read (R135). -/
theorem buildFrame_append {sh : Shape} {b : List Byte} {i : Instr} (h : buildFrame sh b = some i) (y : List Byte) :
    buildFrame sh (b ++ y) = some i := by
  cases sh <;> simp only [buildFrame, Option.map_eq_some_iff, Prod.exists] at h ⊢
  case fc01Req | fc02Req | fc03Req | fc04Req | fc15Rsp | fc16Rsp | fc05Req | fc06Req | fc06Rsp =>
    obtain ⟨u, p, q, hr, rfl⟩ := h
    obtain ⟨f, r, rfl⟩ := readAQ_eq_some.mp hr
    exact ⟨u, p, q, readAQ_eq_some.mpr ⟨f, r ++ y, by simp⟩, rfl⟩
  case fc05Rsp =>
    obtain ⟨u, p, hr, rfl⟩ := h
    obtain ⟨f, r, rfl⟩ := readA_eq_some.mp hr
    exact ⟨u, p, readA_eq_some.mpr ⟨f, r ++ y, by simp⟩, rfl⟩
  case fc01Rsp | fc02Rsp | fc03Rsp | fc04Rsp | fc23Rsp =>
    obtain ⟨u, c, d, hr, rfl⟩ := h
    obtain ⟨f, r, rfl, hl⟩ := readV3_eq_some.mp hr
    exact ⟨u, c, d, readV3_eq_some.mpr ⟨f, r ++ y, by simp, hl⟩, rfl⟩
  case fc15Req | fc16Req =>
    obtain ⟨u, p, q, c, d, hr, rfl⟩ := h
    obtain ⟨f, r, rfl, hl⟩ := readV7_eq_some.mp hr
    exact ⟨u, p, q, c, d, readV7_eq_some.mpr ⟨f, r ++ y, by simp, hl⟩, rfl⟩
  case fc23Req =>
    obtain ⟨u, p, q, z, w, c, d, hr, rfl⟩ := h
    obtain ⟨f, r, rfl, hl⟩ := readV11_eq_some.mp hr
    exact ⟨u, p, q, z, w, c, d, readV11_eq_some.mpr ⟨f, r ++ y, by simp, hl⟩, rfl⟩
  case exc =>
    obtain ⟨u, f, c, hr, rfl⟩ := h
    obtain ⟨r, rfl⟩ := readE5_eq_some.mp hr
    exact ⟨u, f, c, readE5_eq_some.mpr ⟨r ++ y, by simp⟩, rfl⟩

/-- A body with the room of its checksum behind it resolves to its length, and with less to no length (R91). -/
theorem need_body {i : Instr} {sh : Shape} {body : List Byte} (hs : i.shape? = some sh) (hw : i.wf = true)
    (hb : bodyOf i = some body) (r : List Byte) :
    need sh.layout (body ++ r) = if 2 ≤ r.length then some (body.length + 2) else none := by
  cases i <;> simp only [Instr.shape?, Option.some.injEq, reduceCtorEq] at hs <;> subst hs <;>
    simp only [bodyOf, Option.some.injEq] at hb <;> subst hb <;> simp only [Instr.wf, beq_iff_eq] at hw <;>
    simp [need, Shape.layout, Shape.format, Format.layout, excLen, csumBytes, bodyTwo, bodyV3, bodyV7, bodyV11, be16Bytes] <;>
    split <;> split <;> first | rfl | omega | (congr 1; omega)

end Sys2Proof
end

