-- ==== Sys2Proof/Laws/State.lean ====
section
/-! SUPPORT. One lemma per field per update of State, true by rfl, so that no later proof unfolds a record update. -/

namespace Sys2Proof.Machine

@[simp] theorem bufAppend_buf (chunk : List Byte) (s : State) : (bufAppend chunk s).buf = s.buf ++ chunk := rfl
@[simp] theorem bufAppend_noise (chunk : List Byte) (s : State) : (bufAppend chunk s).noise = s.noise := rfl
@[simp] theorem bufAppend_out (chunk : List Byte) (s : State) : (bufAppend chunk s).out = s.out := rfl
@[simp] theorem bufAppend_crc (chunk : List Byte) (s : State) : (bufAppend chunk s).crc = s.crc := rfl
@[simp] theorem bufAppend_ret (chunk : List Byte) (s : State) : (bufAppend chunk s).ret = s.ret := rfl
@[simp] theorem bufAppend_calls (chunk : List Byte) (s : State) : (bufAppend chunk s).calls = s.calls := rfl

@[simp] theorem bufDrop_buf (k : Nat) (s : State) : (bufDrop k s).buf = s.buf.drop k := rfl
@[simp] theorem bufDrop_noise (k : Nat) (s : State) : (bufDrop k s).noise = s.noise := rfl
@[simp] theorem bufDrop_out (k : Nat) (s : State) : (bufDrop k s).out = s.out := rfl
@[simp] theorem bufDrop_crc (k : Nat) (s : State) : (bufDrop k s).crc = s.crc := rfl
@[simp] theorem bufDrop_ret (k : Nat) (s : State) : (bufDrop k s).ret = s.ret := rfl
@[simp] theorem bufDrop_calls (k : Nat) (s : State) : (bufDrop k s).calls = s.calls := rfl

@[simp] theorem emit_buf (ev : Event) (s : State) : (emit ev s).buf = s.buf := rfl
@[simp] theorem emit_noise (ev : Event) (s : State) : (emit ev s).noise = s.noise := rfl
@[simp] theorem emit_out (ev : Event) (s : State) : (emit ev s).out = s.out ++ [ev] := rfl
@[simp] theorem emit_crc (ev : Event) (s : State) : (emit ev s).crc = s.crc := rfl
@[simp] theorem emit_ret (ev : Event) (s : State) : (emit ev s).ret = s.ret := rfl
@[simp] theorem emit_calls (ev : Event) (s : State) : (emit ev s).calls = s.calls := rfl

@[simp] theorem answer_buf (r : Result) (s : State) : (answer r s).buf = s.buf := rfl
@[simp] theorem answer_noise (r : Result) (s : State) : (answer r s).noise = s.noise := rfl
@[simp] theorem answer_out (r : Result) (s : State) : (answer r s).out = s.out := rfl
@[simp] theorem answer_crc (r : Result) (s : State) : (answer r s).crc = s.crc := rfl
@[simp] theorem answer_ret (r : Result) (s : State) : (answer r s).ret = some r := rfl
@[simp] theorem answer_calls (r : Result) (s : State) : (answer r s).calls = s.calls := rfl

@[simp] theorem afterFrame_buf (len : Nat) (ev : DecodedFrame) (s : State) : (afterFrame len ev s).buf = s.buf.drop len := rfl
@[simp] theorem afterFrame_noise (len : Nat) (ev : DecodedFrame) (s : State) : (afterFrame len ev s).noise = .closed := rfl
@[simp] theorem afterFrame_out (len : Nat) (ev : DecodedFrame) (s : State) : (afterFrame len ev s).out = s.out ++ s.noise.closing ++ [.frame ev] := rfl
@[simp] theorem afterFrame_crc (len : Nat) (ev : DecodedFrame) (s : State) : (afterFrame len ev s).crc = s.crc := rfl
@[simp] theorem afterFrame_ret (len : Nat) (ev : DecodedFrame) (s : State) : (afterFrame len ev s).ret = s.ret := rfl
@[simp] theorem afterFrame_calls (len : Nat) (ev : DecodedFrame) (s : State) : (afterFrame len ev s).calls = s.calls := rfl

@[simp] theorem closeRun_buf (s : State) : (closeRun s).buf = s.buf := by
  cases s with | mk buf noise out crc ret calls => cases noise <;> simp [closeRun, emit]

@[simp] theorem closeRun_noise (s : State) : (closeRun s).noise = .closed := by
  cases s with | mk buf noise out crc ret calls => cases noise <;> simp [closeRun, emit]

@[simp] theorem closeRun_out (s : State) : (closeRun s).out = s.out ++ s.noise.closing := by
  cases s with | mk buf noise out crc ret calls => cases noise <;> simp [closeRun, Noise.closing, emit]

@[simp] theorem closeRun_crc (s : State) : (closeRun s).crc = s.crc := by
  cases s with | mk buf noise out crc ret calls => cases noise <;> simp [closeRun, emit]

@[simp] theorem closeRun_ret (s : State) : (closeRun s).ret = s.ret := by
  cases s with | mk buf noise out crc ret calls => cases noise <;> simp [closeRun, emit]

@[simp] theorem closeRun_calls (s : State) : (closeRun s).calls = s.calls := by
  cases s with | mk buf noise out crc ret calls => cases noise <;> simp [closeRun, emit]

@[simp] theorem reset_buf : State.reset.buf = [] := rfl
@[simp] theorem reset_noise : State.reset.noise = .closed := rfl
@[simp] theorem reset_out : State.reset.out = [] := rfl
@[simp] theorem reset_ret : State.reset.ret = none := rfl
@[simp] theorem reset_calls : State.reset.calls = [] := rfl

/-- Two states are equal when their six fields are. -/
theorem State.eq_of_fields {s t : State} (hb : s.buf = t.buf) (hn : s.noise = t.noise) (ho : s.out = t.out)
    (hc : s.crc = t.crc) (hr : s.ret = t.ret) (hq : s.calls = t.calls) : s = t := by
  cases s; cases t; simp_all

end Sys2Proof.Machine
end

