-- ==== Sys2Proof/Laws/Ops.lean ====
section
/-! SUPPORT. One lemma per shared operation that says everything it can do, and the wf lemma of the storage (R25). -/

namespace Sys2Proof.Machine

@[simp] theorem andThen_next {α β : Type} (a : α) (k : α → Host.Outcome β Fault Refusal) :
    andThen (.next a) k = k a := rfl

@[simp] theorem andThen_fault {α β : Type} (f : Fault) (k : α → Host.Outcome β Fault Refusal) :
    andThen (.fault f) k = .fault f := rfl

@[simp] theorem andThen_refused {α β : Type} (r : Refusal) (k : α → Host.Outcome β Fault Refusal) :
    andThen (.refused r) k = .refused r := rfl

/-- A sequence answers a next state exactly when both parts do. -/
theorem andThen_eq_next {α β : Type} {o : Host.Outcome α Fault Refusal} {k : α → Host.Outcome β Fault Refusal} {b : β} :
    andThen o k = .next b ↔ ∃ a, o = .next a ∧ k a = .next b := by
  cases o <;> simp

/-- The noise step on a non-empty buffer (R156). -/
theorem noiseByte_cons {s : State} {b : Byte} {rest : List Byte} (h : s.buf = b :: rest) :
    noiseByte s = .next { s with buf := rest, noise := s.noise.push b } := by
  simp [noiseByte, h, bufDrop]

/-- Everything the noise step can do: on an empty buffer it stops; else it answers the one state of R156. -/
theorem noiseByte_eq_next {s t : State} :
    noiseByte s = .next t ↔
      ∃ b rest, s.buf = b :: rest ∧ t = { s with buf := rest, noise := s.noise.push b } := by
  cases h : s.buf with
  | nil => simp [noiseByte, h]
  | cons b rest => simp [noiseByte_cons h, eq_comm]

/-- The emission of a frame that is there (R157). -/
theorem emitEvent_of_le {len : Nat} {ev : DecodedFrame} {s : State} (h : len ≤ s.buf.length) :
    emitEvent len ev s = .next (afterFrame len ev s) := by
  simp only [emitEvent, h, if_true, Host.Outcome.next.injEq]
  apply State.eq_of_fields <;> simp

/-- The emission of more bytes than there are stops. -/
theorem emitEvent_of_lt {len : Nat} {ev : DecodedFrame} {s : State} (h : s.buf.length < len) :
    emitEvent len ev s = .fault .bufReadPastEnd := by
  simp [emitEvent, Nat.not_le.mpr h]

/-- Everything the emission of a frame can do. -/
theorem emitEvent_eq_next {len : Nat} {ev : DecodedFrame} {s t : State} :
    emitEvent len ev s = .next t ↔ len ≤ s.buf.length ∧ t = afterFrame len ev s := by
  by_cases h : len ≤ s.buf.length
  · simp [emitEvent_of_le h, h, eq_comm]
  · simp [emitEvent_of_lt (Nat.lt_of_not_le h), h]

@[simp] theorem Noise.bytes_push (n : Noise) (b : Byte) : (n.push b).bytes = n.bytes ++ [b] := by
  cases n <;> rfl

@[simp] theorem Noise.wf_push (n : Noise) (b : Byte) : (n.push b).wf = true := by
  cases n <;> simp [Noise.push, Noise.wf]

/-- The wire bytes of the events that close a run are the run's bytes. -/
@[simp] theorem Noise.closing_bytes (n : Noise) : n.closing.flatMap Event.wireBytes = n.bytes := by
  cases n <;> simp [Noise.closing, Noise.bytes, Event.wireBytes]

@[simp] theorem reset_memory_wf : Memory.wf State.reset = true := rfl

/-! Every operation that writes the storage keeps its form. -/

theorem bufAppend_memory_wf (chunk : List Byte) (s : State) : Memory.wf (bufAppend chunk s) = Memory.wf s := rfl

theorem bufDrop_memory_wf (k : Nat) (s : State) : Memory.wf (bufDrop k s) = Memory.wf s := rfl

theorem noiseByte_memory_wf {s t : State} (h : noiseByte s = .next t) : Memory.wf t = true := by
  obtain ⟨b, rest, -, rfl⟩ := noiseByte_eq_next.mp h
  simp [Memory.wf]

theorem emitEvent_memory_wf {len : Nat} {ev : DecodedFrame} {s t : State} (h : emitEvent len ev s = .next t) :
    Memory.wf t = true := by
  obtain ⟨-, rfl⟩ := emitEvent_eq_next.mp h
  rfl

end Sys2Proof.Machine
end

