-- ==== Sys2Proof/Laws/PerInstr.lean ====
section
/-! SUPPORT. Statements proved once per instruction. -/

namespace Sys2Proof.Laws.WireLength

open Sys2Proof.Machine

/-- R50: a well-formed frame instruction has between 5 and 268 wire bytes. -/
def Statement (i : Instr) : Prop := i.wf = true → ∀ bs, encode i = some bs → 5 ≤ bs.length ∧ bs.length ≤ 268

/-- A count byte asks for at most 255 bytes. -/
theorem count_le {n : Nat} {c : Byte} (h : (n == c.toNat) = true) : n ≤ 255 := by
  have := beq_iff_eq.mp h
  have := c.isLt
  omega

/-- The wire bytes are the body and two more. -/
theorem of_body {i : Instr} (body : List Byte) (hb : bodyOf i = some body)
    (h : i.wf = true → 3 ≤ body.length ∧ body.length ≤ 266) : Statement i := by
  intro hw bs he
  simp only [encode, hb, Option.map_some, Option.some.injEq] at he
  have := h hw
  simp only [← he, frame_length]
  omega

/-- An instruction with no wire bytes of its own (R56, R61). -/
theorem of_none {i : Instr} (hb : bodyOf i = none) : Statement i := by
  intro _ bs he
  simp [encode, hb] at he

theorem fc01Req (unit : Byte) (addr qty : U16) : Statement (.fc01Req unit addr qty) :=
  of_body _ rfl fun _ => by simp [bodyTwo]

theorem fc01Rsp (unit count : Byte) (data : List Byte) : Statement (.fc01Rsp unit count data) :=
  of_body _ rfl fun hw => by have := count_le hw; simp [bodyV3]; omega

theorem fc02Req (unit : Byte) (addr qty : U16) : Statement (.fc02Req unit addr qty) :=
  of_body _ rfl fun _ => by simp [bodyTwo]

theorem fc02Rsp (unit count : Byte) (data : List Byte) : Statement (.fc02Rsp unit count data) :=
  of_body _ rfl fun hw => by have := count_le hw; simp [bodyV3]; omega

theorem fc03Req (unit : Byte) (addr qty : U16) : Statement (.fc03Req unit addr qty) :=
  of_body _ rfl fun _ => by simp [bodyTwo]

theorem fc03Rsp (unit count : Byte) (data : List Byte) : Statement (.fc03Rsp unit count data) :=
  of_body _ rfl fun hw => by have := count_le hw; simp [bodyV3]; omega

theorem fc04Req (unit : Byte) (addr qty : U16) : Statement (.fc04Req unit addr qty) :=
  of_body _ rfl fun _ => by simp [bodyTwo]

theorem fc04Rsp (unit count : Byte) (data : List Byte) : Statement (.fc04Rsp unit count data) :=
  of_body _ rfl fun hw => by have := count_le hw; simp [bodyV3]; omega

theorem fc05Req (unit : Byte) (addr data : U16) : Statement (.fc05Req unit addr data) :=
  of_body _ rfl fun _ => by simp [bodyTwo]

theorem fc05Rsp (unit : Byte) (addr : U16) : Statement (.fc05Rsp unit addr) :=
  of_body _ rfl fun _ => by simp

theorem fc06Req (unit : Byte) (addr data : U16) : Statement (.fc06Req unit addr data) :=
  of_body _ rfl fun _ => by simp [bodyTwo]

theorem fc06Rsp (unit : Byte) (addr data : U16) : Statement (.fc06Rsp unit addr data) :=
  of_body _ rfl fun _ => by simp [bodyTwo]

theorem fc15Req (unit : Byte) (addr qty : U16) (count : Byte) (data : List Byte) : Statement (.fc15Req unit addr qty count data) :=
  of_body _ rfl fun hw => by have := count_le hw; simp [bodyV7]; omega

theorem fc15Rsp (unit : Byte) (addr qty : U16) : Statement (.fc15Rsp unit addr qty) :=
  of_body _ rfl fun _ => by simp [bodyTwo]

theorem fc16Req (unit : Byte) (addr qty : U16) (count : Byte) (data : List Byte) : Statement (.fc16Req unit addr qty count data) :=
  of_body _ rfl fun hw => by have := count_le hw; simp [bodyV7]; omega

theorem fc16Rsp (unit : Byte) (addr qty : U16) : Statement (.fc16Rsp unit addr qty) :=
  of_body _ rfl fun _ => by simp [bodyTwo]

theorem fc23Req (unit : Byte) (raddr rqty waddr wqty : U16) (count : Byte) (wdata : List Byte) :
    Statement (.fc23Req unit raddr rqty waddr wqty count wdata) :=
  of_body _ rfl fun hw => by have := count_le hw; simp [bodyV11]; omega

theorem fc23Rsp (unit count : Byte) (data : List Byte) : Statement (.fc23Rsp unit count data) :=
  of_body _ rfl fun hw => by have := count_le hw; simp [bodyV3]; omega

theorem exc (unit fc code : Byte) : Statement (.exc unit fc code) :=
  of_body _ rfl fun _ => by simp

theorem unknownFc (unit fc : Byte) : Statement (.unknownFc unit fc) := of_none rfl

theorem checksum (bytes : List Byte) (length : Nat) : Statement (.checksum bytes length) := of_none rfl

theorem crcInit : Statement (.crcInit) := of_none rfl

theorem crcUpdate (b : Byte) : Statement (.crcUpdate b) := of_none rfl

theorem crcCheck (len : Nat) : Statement (.crcCheck len) := of_none rfl

theorem ingest (chunk : List Byte) : Statement (.ingest chunk) := of_none rfl

theorem drain : Statement (.drain) := of_none rfl

theorem step : Statement (.step) := of_none rfl

theorem noiseStep : Statement (.noiseStep) := of_none rfl

theorem emitFrame (len : Nat) (ev : Machine.DecodedFrame) : Statement (.emitFrame len ev) := of_none rfl

end Sys2Proof.Laws.WireLength
end

