-- ==== Sys2Proof/Laws/Shapes.lean ====
section
/-! SUPPORT. The shape test (R111): when it waits, what a match says of the bytes, that a frame's wire bytes match its shape, and
that a decided test stays decided (R135). -/

namespace Sys2Proof

open Machine

/-- The fields of a resolved shape are all there to be read. -/
theorem buildFrame_of_need {sh : Shape} {b : List Byte} {len : Nat} (h : need sh.layout b = some len) :
    ∃ i, buildFrame sh b = some i := by
  have fixed : ∀ n, need (.fixed n) b = some len → n ≤ b.length := by
    intro n h
    simp only [need] at h
    split at h <;> simp_all
  have counted : ∀ co pre, need (.counted co pre) b = some len →
      ∃ c, b[co]? = some c ∧ pre + c.toNat + 2 ≤ b.length := by
    intro co pre h
    simp only [need] at h
    split at h
    · simp at h
    · rename_i c hc
      split at h
      · exact ⟨c, hc, by simpa [csumBytes] using ‹_›⟩
      · simp at h
  have payload : ∀ off n, off + n ≤ b.length → ∃ d, memRead b off n = some d := by
    intro off n hn
    exact ⟨(b.drop off).take n, by simp [memRead, hn]⟩
  have field : ∀ o, o + 1 < b.length → ∃ v, be16At b o = some v := by
    intro o ho
    have h0 : o < b.length := by omega
    exact ⟨pack b[o] b[o + 1], by simp [be16At, List.getElem?_eq_getElem ho, List.getElem?_eq_getElem h0]⟩
  have byte : ∀ o, o < b.length → ∃ v, b[o]? = some v := by
    intro o ho
    exact ⟨_, List.getElem?_eq_getElem ho⟩
  cases sh <;> simp only [Shape.layout, Shape.format, Format.layout, excLen] at h
  case fc01Req | fc02Req | fc03Req | fc04Req | fc15Rsp | fc16Rsp | fc05Req | fc06Req | fc06Rsp =>
    have := fixed _ h
    obtain ⟨u, hu⟩ := byte 0 (by omega)
    obtain ⟨x, hx⟩ := field 2 (by omega)
    obtain ⟨y, hy⟩ := field 4 (by omega)
    simp [buildFrame, readAQ, readAD, hu, hx, hy]
  case fc05Rsp =>
    have := fixed _ h
    obtain ⟨u, hu⟩ := byte 0 (by omega)
    obtain ⟨x, hx⟩ := field 2 (by omega)
    simp [buildFrame, readA, hu, hx]
  case fc01Rsp | fc02Rsp | fc03Rsp | fc04Rsp | fc23Rsp =>
    obtain ⟨c, hc, hl⟩ := counted _ _ h
    obtain ⟨u, hu⟩ := byte 0 (by omega)
    obtain ⟨d, hd⟩ := payload 3 c.toNat (by omega)
    simp [buildFrame, readV3, hu, hc, hd]
  case fc15Req | fc16Req =>
    obtain ⟨c, hc, hl⟩ := counted _ _ h
    obtain ⟨u, hu⟩ := byte 0 (by omega)
    obtain ⟨x, hx⟩ := field 2 (by omega)
    obtain ⟨y, hy⟩ := field 4 (by omega)
    obtain ⟨d, hd⟩ := payload 7 c.toNat (by omega)
    simp [buildFrame, readV7, hu, hx, hy, hc, hd]
  case fc23Req =>
    obtain ⟨c, hc, hl⟩ := counted _ _ h
    obtain ⟨u, hu⟩ := byte 0 (by omega)
    obtain ⟨x, hx⟩ := field 2 (by omega)
    obtain ⟨y, hy⟩ := field 4 (by omega)
    obtain ⟨z, hz⟩ := field 6 (by omega)
    obtain ⟨w, hw⟩ := field 8 (by omega)
    obtain ⟨d, hd⟩ := payload 11 c.toNat (by omega)
    simp [buildFrame, readV11, hu, hx, hy, hz, hw, hc, hd]
  case exc =>
    have := fixed _ h
    obtain ⟨u, hu⟩ := byte 0 (by omega)
    obtain ⟨f, hf⟩ := byte 1 (by omega)
    obtain ⟨c, hc⟩ := byte 2 (by omega)
    simp [buildFrame, readE5, hu, hf, hc]

/-- A shape test waits exactly when its length is not there; it never waits for want of a field. -/
theorem tryShape_insufficient_iff {sh : Shape} {b : List Byte} :
    tryShape sh b = .insufficient ↔ need sh.layout b = none := by
  unfold tryShape
  cases h : need sh.layout b with
  | none => simp
  | some len =>
    obtain ⟨i, hi⟩ := buildFrame_of_need h
    by_cases hc : crcMatches b len = true <;> simp [hc, hi]

/-- A shape test matches exactly when the length is there and the checksum fits (R57, R111). -/
theorem tryShape_matched_iff {sh : Shape} {b : List Byte} {len : Nat} {i : Instr} :
    tryShape sh b = .matched len i ↔
      need sh.layout b = some len ∧ crcMatches b len = true ∧ buildFrame sh b = some i := by
  unfold tryShape
  cases h : need sh.layout b with
  | none => simp
  | some n =>
    obtain ⟨j, hj⟩ := buildFrame_of_need h
    by_cases hc : crcMatches b n = true
    · simp only [hc, if_true, hj, Attempt.matched.injEq, Option.some.injEq]
      constructor
      · rintro ⟨rfl, rfl⟩; exact ⟨rfl, hc, rfl⟩
      · rintro ⟨rfl, -, rfl⟩; exact ⟨rfl, rfl⟩
    · simp only [hc, Option.some.injEq]
      constructor
      · intro h; simp at h
      · rintro ⟨rfl, h, -⟩; exact absurd h hc

/-- A shape test mismatches exactly when the length is there and the checksum does not fit (R111). -/
theorem tryShape_mismatch_iff {sh : Shape} {b : List Byte} :
    tryShape sh b = .mismatch ↔ ∃ len, need sh.layout b = some len ∧ crcMatches b len = false := by
  unfold tryShape
  cases h : need sh.layout b with
  | none => simp
  | some n =>
    obtain ⟨j, hj⟩ := buildFrame_of_need h
    by_cases hc : crcMatches b n = true <;> simp [hc, hj]

/-- A decided shape test stays as it is when bytes are added (R135). -/
theorem tryShape_append {sh : Shape} {b : List Byte} (h : tryShape sh b ≠ .insufficient) (y : List Byte) :
    tryShape sh (b ++ y) = tryShape sh b := by
  cases ht : tryShape sh b with
  | insufficient => exact absurd ht h
  | mismatch =>
    obtain ⟨len, hn, hc⟩ := tryShape_mismatch_iff.mp ht
    have := need_bounds hn
    exact tryShape_mismatch_iff.mpr ⟨len, need_append hn y, by rw [crcMatches_append (need_le hn) (by omega), hc]⟩
  | matched len i =>
    obtain ⟨hn, hc, hi⟩ := tryShape_matched_iff.mp ht
    have := need_bounds hn
    exact tryShape_matched_iff.mpr
      ⟨need_append hn y, by rw [crcMatches_append (need_le hn) (by omega), hc], buildFrame_append hi y⟩

/-- What a match says: the instruction is a well-formed one of the shape, and the bytes begin with its wire bytes. -/
theorem tryShape_matched {sh : Shape} {b : List Byte} {fc : Byte} {len : Nat} {i : Instr} (h1 : b[1]? = some fc)
    (hf : sh.selectedBy fc = true) (h : tryShape sh b = .matched len i) :
    i.shape? = some sh ∧ i.wf = true ∧
      ∃ body r, bodyOf i = some body ∧ b = frame body ++ r ∧ len = body.length + 2 := by
  obtain ⟨hn, hc, hi⟩ := tryShape_matched_iff.mp h
  obtain ⟨hs, hw, body, r, hb, rfl⟩ := buildFrame_eq_some h1 hf hi
  rw [need_body hs hw hb] at hn
  split at hn
  · simp only [Option.some.injEq] at hn
    subst hn
    obtain ⟨r', rfl⟩ := crcMatches_body.mp hc
    exact ⟨hs, hw, body, r', hb, by simp [frame], rfl⟩
  · simp at hn

/-- The wire bytes of a well-formed frame match its shape, whatever follows them. -/
theorem tryShape_frame {i : Instr} {sh : Shape} {body : List Byte} (hs : i.shape? = some sh) (hw : i.wf = true)
    (hb : bodyOf i = some body) (r : List Byte) : tryShape sh (frame body ++ r) = .matched (body.length + 2) i := by
  refine tryShape_matched_iff.mpr ⟨?_, crcMatches_frame body r, ?_⟩
  · rw [frame, List.append_assoc, need_body hs hw hb]; simp
  · rw [frame, List.append_assoc]; exact buildFrame_body hs hw hb _

/-- The shapes a lookup gives are those the code selects, and the request is the one tried before the response (R90). -/
theorem lookup_selects {fc : Byte} {req rsp : Shape} (h : lookup fc = some (req, rsp)) :
    req.selectedBy fc = true ∧ rsp.selectedBy fc = true ∧ rsp.requestOf = some req ∧ req.requestOf = none := by
  unfold lookup at h
  repeat' split at h
  all_goals first
    | (simp only [Option.some.injEq, Prod.mk.injEq] at h; obtain ⟨rfl, rfl⟩ := h; subst fc; decide)
    | simp at h

end Sys2Proof
end

