-- ==== Sys2Proof/Laws/Reassembler.lean ====
section
/-! SUPPORT. The loop: what the decoder's instruction does, what one pass can do, how the loop unfolds. -/

namespace Sys2Proof.Machine

/-- What the loop runs at the front is what the dispatch runs, for every instruction the decoder can answer. -/
theorem runFront_eq_exec {i : Instr} (s : State) (h : i.shape?.isSome = true ∨ i = .noiseStep ∨ ∃ u f, i = .unknownFc u f) :
    runFront i s = exec i s := by
  cases i <;> first | rfl | (simp [Instr.shape?] at h)

/-- The event a frame instruction emits: one well-formed frame event with the instruction's own body (R160), a Request for a
request shape, a Response for a response shape. -/
theorem exec_frame {i : Instr} {sh : Shape} {body : List Byte} (hs : i.shape? = some sh) (hw : i.wf = true)
    (hb : bodyOf i = some body) :
    ∃ ev, (∀ s, exec i s = emitEvent (body.length + 2) ev s) ∧ ev.body = body ∧ ev.wf = true ∧
      ((sh.requestOf = none → sh ≠ .exc → ∃ u fc f, ev = .request u fc f) ∧
        (sh.requestOf ≠ none → ∃ u fc f, ev = .response u fc f)) := by
  have mask : ∀ f : Byte, isException f = true → f &&& fcMask ||| excBit = f := by decide
  have clear : ∀ f : Byte, f &&& fcMask &&& excBit = 0 := by decide
  have v3 : ∀ (u f c : Byte) (d : List Byte), d.length = c.toNat → (bodyV3 u f c d).length + 2 = 5 + c.toNat := by
    intro u f c d h; simp [bodyV3]; omega
  have v7 : ∀ (u f : Byte) (x y : U16) (c : Byte) (d : List Byte), d.length = c.toNat →
      (bodyV7 u f x y c d).length + 2 = 9 + c.toNat := by
    intro u f x y c d h; simp [bodyV7]; omega
  have v11 : ∀ (u f : Byte) (x y z w : U16) (c : Byte) (d : List Byte), d.length = c.toNat →
      (bodyV11 u f x y z w c d).length + 2 = 13 + c.toNat := by
    intro u f x y z w c d h; simp [bodyV11]; omega
  cases i <;> simp only [Instr.shape?, Option.some.injEq, reduceCtorEq] at hs <;> subst hs <;>
    simp only [bodyOf, Option.some.injEq] at hb <;> subst hb <;> simp only [Instr.wf, beq_iff_eq] at hw
  case fc01Req u x y => exact ⟨.request u 0x01 (.addrQty x y), fun s => rfl, rfl, rfl, by simp [Shape.requestOf]⟩
  case fc01Rsp u c d =>
    exact ⟨.response u 0x01 (.payload c d), fun s => by rw [v3 u 0x01 c d hw]; rfl, rfl, by simpa [DecodedFrame.wf, Fields.wf, Fields.fitRequest, Fields.fitResponse] using hw, by simp [Shape.requestOf]⟩
  case fc02Req u x y => exact ⟨.request u 0x02 (.addrQty x y), fun s => rfl, rfl, rfl, by simp [Shape.requestOf]⟩
  case fc02Rsp u c d =>
    exact ⟨.response u 0x02 (.payload c d), fun s => by rw [v3 u 0x02 c d hw]; rfl, rfl, by simpa [DecodedFrame.wf, Fields.wf, Fields.fitRequest, Fields.fitResponse] using hw, by simp [Shape.requestOf]⟩
  case fc03Req u x y => exact ⟨.request u 0x03 (.addrQty x y), fun s => rfl, rfl, rfl, by simp [Shape.requestOf]⟩
  case fc03Rsp u c d =>
    exact ⟨.response u 0x03 (.payload c d), fun s => by rw [v3 u 0x03 c d hw]; rfl, rfl, by simpa [DecodedFrame.wf, Fields.wf, Fields.fitRequest, Fields.fitResponse] using hw, by simp [Shape.requestOf]⟩
  case fc04Req u x y => exact ⟨.request u 0x04 (.addrQty x y), fun s => rfl, rfl, rfl, by simp [Shape.requestOf]⟩
  case fc04Rsp u c d =>
    exact ⟨.response u 0x04 (.payload c d), fun s => by rw [v3 u 0x04 c d hw]; rfl, rfl, by simpa [DecodedFrame.wf, Fields.wf, Fields.fitRequest, Fields.fitResponse] using hw, by simp [Shape.requestOf]⟩
  case fc05Req u x y => exact ⟨.request u 0x05 (.addrData x y), fun s => rfl, rfl, rfl, by simp [Shape.requestOf]⟩
  case fc05Rsp u x => exact ⟨.response u 0x05 (.addrOnly x), fun s => rfl, rfl, rfl, by simp [Shape.requestOf]⟩
  case fc06Req u x y => exact ⟨.request u 0x06 (.addrData x y), fun s => rfl, rfl, rfl, by simp [Shape.requestOf]⟩
  case fc06Rsp u x y => exact ⟨.response u 0x06 (.addrData x y), fun s => rfl, rfl, rfl, by simp [Shape.requestOf]⟩
  case fc15Req u x y c d =>
    exact ⟨.request u 0x0F (.addrQtyPayload x y c d), fun s => by rw [v7 u 0x0F x y c d hw]; rfl, rfl, by simpa [DecodedFrame.wf, Fields.wf, Fields.fitRequest, Fields.fitResponse] using hw,
      by simp [Shape.requestOf]⟩
  case fc15Rsp u x y => exact ⟨.response u 0x0F (.addrQty x y), fun s => rfl, rfl, rfl, by simp [Shape.requestOf]⟩
  case fc16Req u x y c d =>
    exact ⟨.request u 0x10 (.addrQtyPayload x y c d), fun s => by rw [v7 u 0x10 x y c d hw]; rfl, rfl, by simpa [DecodedFrame.wf, Fields.wf, Fields.fitRequest, Fields.fitResponse] using hw,
      by simp [Shape.requestOf]⟩
  case fc16Rsp u x y => exact ⟨.response u 0x10 (.addrQty x y), fun s => rfl, rfl, rfl, by simp [Shape.requestOf]⟩
  case fc23Req u x y z w c d =>
    exact ⟨.request u 0x17 (.readWrite x y z w c d), fun s => by rw [v11 u 0x17 x y z w c d hw]; rfl, rfl, by simpa [DecodedFrame.wf, Fields.wf, Fields.fitRequest, Fields.fitResponse] using hw,
      by simp [Shape.requestOf]⟩
  case fc23Rsp u c d =>
    exact ⟨.response u 0x17 (.payload c d), fun s => by rw [v3 u 0x17 c d hw]; rfl, rfl, by simpa [DecodedFrame.wf, Fields.wf, Fields.fitRequest, Fields.fitResponse] using hw, by simp [Shape.requestOf]⟩
  case exc u f c =>
    exact ⟨.exception u (f &&& fcMask) c, fun s => rfl, by simp [DecodedFrame.body, mask f hw], by simp [DecodedFrame.wf, clear f],
      by simp [Shape.requestOf]⟩

/-- Where the noise verdict comes from: the instruction is NOISE_STEP or UNKNOWN_FC, and there are three bytes. -/
theorem decode_noiseByte {b : List Byte} {i : Instr} (h : decode b = .noiseByte i) :
    (i = .noiseStep ∨ ∃ u f, i = .unknownFc u f) ∧ 3 ≤ b.length := by
  unfold decode at h
  repeat' split at h
  all_goals first
    | (simp only [reduceCtorEq] at h)
    | (simp only [Front.noiseByte.injEq] at h; subst h; simp)

/-- Where a frame verdict comes from: a shape the function-code byte selects matched. -/
theorem decode_frame {b : List Byte} {len : Nat} {i : Instr} (h : decode b = .frame len i) :
    ∃ fc sh, b[1]? = some fc ∧ sh.selectedBy fc = true ∧ tryShape sh b = .matched len i := by
  unfold decode at h
  split at h
  · rename_i unit fc _ _
    split at h
    · rename_i he
      split at h <;> simp only [reduceCtorEq, Front.frame.injEq] at h
      obtain ⟨rfl, rfl⟩ := h
      exact ⟨fc, .exc, rfl, he, ‹_›⟩
    · split at h
      · simp at h
      · rename_i req rsp hl
        have hs := lookup_selects hl
        split at h
        · simp at h
        · simp only [Front.frame.injEq] at h
          obtain ⟨rfl, rfl⟩ := h
          exact ⟨fc, req, rfl, hs.1, ‹_›⟩
        · split at h <;> simp only [reduceCtorEq, Front.frame.injEq] at h
          obtain ⟨rfl, rfl⟩ := h
          exact ⟨fc, rsp, rfl, hs.2.1, ‹_›⟩
  · simp at h

/-- Everything one pass of the loop can do (R122): wait, move one byte to the noise run, or emit one frame event whose wire bytes
stand at the front of `BUF`. It never stops. -/
theorem pass_cases (s : State) :
    (∃ w, decode s.buf = .needMore w ∧ pass s = .next (.needMore, s)) ∨
    (∃ i b rest, decode s.buf = .noiseByte i ∧ s.buf = b :: rest ∧ runFront i s = exec i s ∧
      exec i s = .next { s with buf := rest, noise := s.noise.push b } ∧
      pass s = .next (.noiseByte, { s with buf := rest, noise := s.noise.push b })) ∨
    (∃ len i ev r, decode s.buf = .frame len i ∧ 5 ≤ len ∧ s.buf = Event.wireBytes (.frame ev) ++ r ∧
      (Event.wireBytes (.frame ev)).length = len ∧ runFront i s = exec i s ∧
      exec i s = .next (afterFrame len ev s) ∧ pass s = .next (.frame, afterFrame len ev s)) := by
  cases h : decode s.buf with
  | needMore w => exact .inl ⟨w, rfl, by simp [pass, h]⟩
  | noiseByte i =>
    obtain ⟨hi, hl⟩ := decode_noiseByte h
    obtain ⟨b, rest, hb⟩ : ∃ b rest, s.buf = b :: rest := by
      cases hs : s.buf with
      | nil => simp [hs] at hl
      | cons b rest => exact ⟨b, rest, rfl⟩
    have hr : runFront i s = exec i s := runFront_eq_exec s (.inr hi)
    have he : exec i s = .next { s with buf := rest, noise := s.noise.push b } := by
      rcases hi with rfl | ⟨u, f, rfl⟩ <;> exact noiseByte_cons hb
    exact .inr (.inl ⟨i, b, rest, rfl, hb, hr, he, by simp [pass, h, hr, he]⟩)
  | frame len i =>
    obtain ⟨fc, sh, h1, hf, ht⟩ := decode_frame h
    obtain ⟨hs, hw, body, r, hbody, hb, rfl⟩ := tryShape_matched h1 hf ht
    obtain ⟨ev, hev, hbd, -⟩ := exec_frame hs hw hbody
    have hbytes : Event.wireBytes (.frame ev) = frame body := by rw [Event.wireBytes, hbd]
    have hr : runFront i s = exec i s := runFront_eq_exec s (.inl (by simp [hs]))
    have hle : body.length + 2 ≤ s.buf.length := by simp [hb]
    have he : exec i s = .next (afterFrame (body.length + 2) ev s) := by rw [hev, emitEvent_of_le hle]
    have h5 := (need_bounds (tryShape_matched_iff.mp ht).1).1
    exact .inr (.inr ⟨_, i, ev, r, rfl, h5, by rw [hbytes]; exact hb, by rw [hbytes]; simp, hr, he, by simp [pass, h, hr, he]⟩)

/-- With enough passes the loop's length does not matter: one more changes nothing (R131). -/
theorem drainLoop_fuel (n : Nat) : ∀ s : State, s.buf.length < n → drainLoop (n + 1) s = drainLoop n s := by
  induction n with
  | zero => intro s h; omega
  | succ n ih =>
    intro s h
    rw [drainLoop, drainLoop]
    rcases pass_cases s with ⟨w, -, hp⟩ | ⟨i, b, rest, -, hb, -, -, hp⟩ | ⟨len, i, ev, r, -, h5, hb, hl, -, -, hp⟩
    · simp [hp]
    · simp only [hp, andThen_next]
      exact ih _ (by simp [hb] at h ⊢; omega)
    · simp only [hp, andThen_next]
      refine ih _ ?_
      have : s.buf.length = len + r.length := by simp [hb, hl]
      simp; omega

/-- With at least `len(BUF) + 1` passes the loop is the whole loop. -/
theorem drainLoop_eq_drainAll {n : Nat} {s : State} (h : s.buf.length < n) : drainLoop n s = drainAll s := by
  obtain ⟨k, rfl⟩ : ∃ k, n = s.buf.length + 1 + k := ⟨n - (s.buf.length + 1), by omega⟩
  clear h
  induction k with
  | zero => rfl
  | succ k ih => rw [← Nat.add_assoc, drainLoop_fuel _ _ (by omega), ih]

/-- The loop's own equation (R121): a pass that returns NEED_MORE ends it, any other goes on. -/
theorem drainAll_eq (s : State) :
    drainAll s = andThen (pass s) fun (v, t) =>
      match v with
      | .needMore => .next t
      | .noiseByte => drainAll t
      | .frame => drainAll t := by
  rw [drainAll, drainLoop]
  rcases pass_cases s with ⟨w, -, hp⟩ | ⟨i, b, rest, -, hb, -, -, hp⟩ | ⟨len, i, ev, r, -, h5, hb, hl, -, -, hp⟩
  · simp [hp]
  · simp only [hp, andThen_next]
    exact drainLoop_eq_drainAll (by simp [hb])
  · simp only [hp, andThen_next]
    refine drainLoop_eq_drainAll ?_
    have : s.buf.length = len + r.length := by simp [hb, hl]
    simp; omega

/-- The loop's induction, packaged once: what holds of every waiting state, and passes backwards through a noise byte and through
a frame, holds of every state. -/
theorem drain_induction {P : State → Prop}
    (wait : ∀ s w, decode s.buf = .needMore w → P s)
    (noise : ∀ s b rest, s.buf = b :: rest →
      pass s = .next (.noiseByte, { s with buf := rest, noise := s.noise.push b }) →
      drainAll s = drainAll { s with buf := rest, noise := s.noise.push b } →
      P { s with buf := rest, noise := s.noise.push b } → P s)
    (frame : ∀ s len ev r, s.buf = Event.wireBytes (.frame ev) ++ r → (Event.wireBytes (.frame ev)).length = len →
      pass s = .next (.frame, afterFrame len ev s) → drainAll s = drainAll (afterFrame len ev s) →
      P (afterFrame len ev s) → P s) (s : State) : P s := by
  generalize hn : s.buf.length = n
  induction n using Nat.strongRecOn generalizing s with
  | ind n ih =>
    have he := drainAll_eq s
    rcases pass_cases s with ⟨w, hw, -⟩ | ⟨i, b, rest, -, hb, -, -, hp⟩ | ⟨len, i, ev, r, -, h5, hb, hl, -, -, hp⟩
    · exact wait s w hw
    · simp only [hp, andThen_next] at he
      exact noise s b rest hb hp he (ih rest.length (by simp [hb] at hn; omega) _ rfl)
    · simp only [hp, andThen_next] at he
      have : s.buf.length = len + r.length := by simp [hb, hl]
      exact frame s len ev r hb hl hp he (ih _ (by simp; omega) _ rfl)

/-- A waiting state: the loop does nothing. -/
theorem drainAll_wait {s : State} {w : Wait} (h : decode s.buf = .needMore w) : drainAll s = .next s := by
  rw [drainAll_eq]; simp [pass, h]

end Sys2Proof.Machine
end

