-- ==== Sys2Proof/Tests/Slice0.lean ====
section
/-! SUPPORT. The model's own tests. The expected values are those of `95_test_vectors.md` (named T-..., V..., P...) and of the
examples of the rules; the witnesses at the end show that the hypotheses of each statement can be met. -/

namespace Sys2Proof.Tests

open Sys2Proof.Machine

-- One theorem at a time: a hundred kernel evaluations at once would each hold a thread.
set_option Elab.async false

/-- The reset state with these bytes in `BUF`. -/
def holding (bs : List Byte) : State := { State.reset with buf := bs }

/-- The next state of an outcome, if it is one. -/
def nextOf : Host.Outcome State Fault Refusal → Option State
  | .next t => some t
  | .fault _ => none
  | .refused _ => none

/-- The events, the open run and the buffer of an outcome. -/
def seen (o : Host.Outcome State Fault Refusal) : Option (List Event × Noise × List Byte) :=
  (nextOf o).map fun t => (t.out, t.noise, t.buf)

/-- The value an outcome returned. -/
def returned (o : Host.Outcome State Fault Refusal) : Option Result := (nextOf o).bind State.ret

/-! ### WellFormed refuses each ill-formed term -/

theorem test_wf_refuses_payload_of_reads :
    Instr.wf (.fc01Rsp 0 2 [0]) = false ∧ Instr.wf (.fc02Rsp 0 2 [0]) = false ∧ Instr.wf (.fc03Rsp 0 0 [0]) = false ∧
      Instr.wf (.fc04Rsp 0 255 []) = false := by decide

theorem test_wf_refuses_payload_of_writes :
    Instr.wf (.fc15Req 0 0 0 2 [0]) = false ∧ Instr.wf (.fc16Req 0 0 0 0 [0]) = false ∧
      Instr.wf (.fc23Req 0 0 0 0 0 1 []) = false ∧ Instr.wf (.fc23Rsp 0 1 [0, 0]) = false := by decide

theorem test_wf_refuses_function_codes :
    Instr.wf (.exc 0 0x7F 0) = false ∧ Instr.wf (.unknownFc 0 0x17) = false ∧ Instr.wf (.unknownFc 0 0x80) = false := by decide

theorem test_wf_refuses_operands :
    Instr.wf (.checksum [1] 2) = false ∧ Instr.wf (.crcCheck 3) = false ∧
      Instr.wf (.emitFrame 7 (.request 0 1 (.addrQty 0 0))) = false ∧
      Instr.wf (.emitFrame 8 (.request 0 5 (.addrQty 0 0))) = false ∧
      Instr.wf (.emitFrame 5 (.exception 0 0x80 0)) = false := by decide +kernel

theorem test_wf_admits :
    Instr.wf (.fc03Rsp 0 2 [7, 8]) = true ∧ Instr.wf (.exc 0 0x80 0) = true ∧ Instr.wf (.unknownFc 0 0x07) = true ∧
      Instr.wf (.checksum [1] 1) = true ∧ Instr.wf (.crcCheck 4) = true ∧
      Instr.wf (.emitFrame 8 (.request 0 1 (.addrQty 0 0))) = true := by decide +kernel

/-! ### One word of each row, written out from R51 (T-S1 to T-S20), decodes to its instruction -/

theorem test_fc01_request_decodes :
    decode [0x11, 0x01, 0x00, 0x13, 0x00, 0x25, 0x0E, 0x84] = .frame 8 (.fc01Req 0x11 0x0013 0x0025) := by decide +kernel

theorem test_fc01_response_decodes :
    decode [0x11, 0x01, 0x05, 0xCD, 0x6B, 0xB2, 0x0E, 0x1B, 0x45, 0xE6] =
      .frame 10 (.fc01Rsp 0x11 5 [0xCD, 0x6B, 0xB2, 0x0E, 0x1B]) := by decide +kernel

theorem test_fc02_request_decodes :
    decode [0x11, 0x02, 0x00, 0xC4, 0x00, 0x16, 0xBA, 0xA9] = .frame 8 (.fc02Req 0x11 0x00C4 0x0016) := by decide +kernel

theorem test_fc02_response_decodes :
    decode [0x11, 0x02, 0x02, 0xAC, 0xDB, 0x45, 0x20] = .needMore .requestShape ∧
      decode [0x11, 0x02, 0x02, 0xAC, 0xDB, 0x45, 0x20, 0x11] = .frame 7 (.fc02Rsp 0x11 2 [0xAC, 0xDB]) := by decide +kernel

theorem test_fc03_request_decodes :
    decode [0x01, 0x03, 0x00, 0x00, 0x00, 0x0A, 0xC5, 0xCD] = .frame 8 (.fc03Req 0x01 0x0000 0x000A) := by decide +kernel

theorem test_fc03_response_decodes :
    decode [0x11, 0x03, 0x06, 0xAE, 0x41, 0x56, 0x52, 0x43, 0x40, 0x49, 0xAD] =
      .frame 11 (.fc03Rsp 0x11 6 [0xAE, 0x41, 0x56, 0x52, 0x43, 0x40]) := by decide +kernel

theorem test_fc04_request_decodes :
    decode [0x11, 0x04, 0x00, 0x08, 0x00, 0x01, 0xB2, 0x98] = .frame 8 (.fc04Req 0x11 0x0008 0x0001) := by decide +kernel

theorem test_fc04_response_decodes :
    decode [0x11, 0x04, 0x04, 0x00, 0x0A, 0x00, 0x0B, 0x8B, 0x80] =
      .frame 9 (.fc04Rsp 0x11 4 [0x00, 0x0A, 0x00, 0x0B]) := by decide +kernel

theorem test_fc05_request_decodes :
    decode [0x11, 0x05, 0x00, 0xAC, 0xFF, 0x00, 0x4E, 0x8B] = .frame 8 (.fc05Req 0x11 0x00AC 0xFF00) := by decide +kernel

theorem test_fc05_response_decodes :
    decode [0x11, 0x05, 0x00, 0xAC, 0x15, 0x64] = .needMore .requestShape ∧
      decode [0x11, 0x05, 0x00, 0xAC, 0x15, 0x64, 0x11, 0x05] = .frame 6 (.fc05Rsp 0x11 0x00AC) := by decide +kernel

theorem test_fc06_request_decodes :
    decode [0x11, 0x06, 0x00, 0x01, 0x00, 0x03, 0x9A, 0x9B] = .frame 8 (.fc06Req 0x11 0x0001 0x0003) := by decide +kernel

/-- T-S12: the bytes of an FC06_RSP are those of the request. -/
theorem test_fc06_response_is_a_request :
    encode (.fc06Rsp 0x11 0x0001 0x0003) = some [0x11, 0x06, 0x00, 0x01, 0x00, 0x03, 0x9A, 0x9B] := by decide +kernel

theorem test_fc15_request_decodes :
    decode [0x11, 0x0F, 0x00, 0x13, 0x00, 0x0A, 0x02, 0xCD, 0x01, 0xBF, 0x0B] =
      .frame 11 (.fc15Req 0x11 0x0013 0x000A 2 [0xCD, 0x01]) := by decide +kernel

/-- T-S14: 47 bytes are needed. -/
theorem test_fc15_response_decodes :
    decode ([0x11, 0x0F, 0x00, 0x13, 0x00, 0x0A, 0x26, 0x99] ++ List.replicate 38 1) = .needMore .requestShape ∧
      decode ([0x11, 0x0F, 0x00, 0x13, 0x00, 0x0A, 0x26, 0x99] ++ List.replicate 39 1) =
        .frame 8 (.fc15Rsp 0x11 0x0013 0x000A) := by decide +kernel

theorem test_fc16_request_decodes :
    decode [0x11, 0x10, 0x00, 0x01, 0x00, 0x02, 0x04, 0x00, 0x0A, 0x01, 0x02, 0xC6, 0xF0] =
      .frame 13 (.fc16Req 0x11 0x0001 0x0002 4 [0x00, 0x0A, 0x01, 0x02]) := by decide +kernel

/-- P3: 27 bytes are needed. -/
theorem test_fc16_response_decodes :
    decode ([0x11, 0x10, 0x00, 0x01, 0x00, 0x02, 0x12, 0x98] ++ List.replicate 18 1) = .needMore .requestShape ∧
      decode ([0x11, 0x10, 0x00, 0x01, 0x00, 0x02, 0x12, 0x98] ++ List.replicate 19 1) =
        .frame 8 (.fc16Rsp 0x11 0x0001 0x0002) := by decide +kernel

theorem test_fc23_request_decodes :
    decode [0x11, 0x17, 0x00, 0x03, 0x00, 0x06, 0x00, 0x0E, 0x00, 0x03, 0x06, 0x00, 0xFF, 0x00, 0xFF, 0x00, 0xFF, 0x4B, 0x54] =
      .frame 19 (.fc23Req 0x11 0x0003 0x0006 0x000E 0x0003 6 [0x00, 0xFF, 0x00, 0xFF, 0x00, 0xFF]) := by decide +kernel

theorem test_fc23_response_decodes :
    decode [0x11, 0x17, 0x0C, 0x00, 0xFE, 0x0A, 0xCD, 0x00, 0x01, 0x00, 0x03, 0x00, 0x0D, 0x00, 0xFF, 0x0D] =
        .needMore .responseShape ∧
      decode [0x11, 0x17, 0x0C, 0x00, 0xFE, 0x0A, 0xCD, 0x00, 0x01, 0x00, 0x03, 0x00, 0x0D, 0x00, 0xFF, 0x0D, 0x75] =
        .frame 17 (.fc23Rsp 0x11 12 [0x00, 0xFE, 0x0A, 0xCD, 0x00, 0x01, 0x00, 0x03, 0x00, 0x0D, 0x00, 0xFF]) := by
  decide +kernel

theorem test_exception_decodes :
    decode [0x01, 0x83, 0x02, 0xC0, 0xF1] = .frame 5 (.exc 0x01 0x83 0x02) ∧
      decode [0x0A, 0xFF, 0x04, 0x11, 0xF1] = .frame 5 (.exc 0x0A 0xFF 0x04) ∧
      decode [0x01, 0x83, 0x02, 0xC0] = .needMore .exceptionShape := by decide +kernel

theorem test_unknown_code_decodes :
    decode [0x11, 0x07] = .needMore .header ∧ decode [0x11, 0x07, 0x00] = .noiseByte (.unknownFc 0x11 0x07) := by decide

/-- T-S22, T-S23: where both shapes fit the request wins. -/
theorem test_request_wins :
    decode [0x11, 0x02, 0x03, 0xAC, 0xDB, 0x35, 0x20, 0x18] = .frame 8 (.fc02Req 0x11 0x03AC 0xDB35) ∧
      decode [0x11, 0x01, 0x00, 0x20, 0x55, 0x00, 0x00, 0x00] = .frame 8 (.fc01Req 0x11 0x0020 0x5500) := by decide +kernel

/-- T-S24: the longest frame, and the 267 bytes that still wait. -/
theorem test_longest_frame :
    decode ([0x11, 0x17, 0, 0, 0, 0, 0, 0, 0, 0, 0xFF] ++ List.replicate 255 0 ++ [0x19]) = .needMore .requestShape ∧
      decode ([0x11, 0x17, 0, 0, 0, 0, 0, 0, 0, 0, 0xFF] ++ List.replicate 255 0 ++ [0x19, 0x04]) =
        .frame 268 (.fc23Req 0x11 0 0 0 0 255 (List.replicate 255 0)) := by decide +kernel

/-! ### The table's numbering and the fetch -/

theorem test_table_word_gives_request : decodeTableWord 8 0x03 = some (.fc03Req 0 0 0) := by decide +kernel

theorem test_table_word_gives_exception :
    decodeTableWord 8 0x80 = some (.exc 0 0x80 0) ∧ decodeTableWord 8 0x07 = some (.unknownFc 0 0x07) := by decide +kernel

/-- The bits of a whole frame behind the unit byte, the first byte lowest. -/
theorem test_table_word_of_whole_frame :
    decodeTableWord 56 0x1CC40A00000003 = some (.fc03Req 0x00 0x0000 0x000A) := by decide +kernel

theorem test_with_fetch_word_runs :
    seen (step (State.reset.withFetchWord 8 0x0F)) =
      some ([.frame (.request 0 0x0F (.addrQtyPayload 0 0 0 []))], .closed, []) := by decide +kernel

/-! ### The checksum engine -/

/-- T-C1. -/
theorem test_tables :
    tabLo 0x01 = 0xC1 ∧ tabHi 0x01 = 0xC0 ∧ tabLo 0x13 = 0x41 ∧ tabHi 0x13 = 0xCD ∧ tabLo 0x7D = 0xC0 ∧ tabHi 0x7D = 0x21 ∧
      tabLo 0xFF = 0x40 ∧ tabHi 0xFF = 0x40 ∧ (tabLoRows.flatten.map BitVec.toNat).sum = 24704 ∧
      (tabHiRows.flatten.map BitVec.toNat).sum = 32640 := by decide +kernel

/-- T-C2, first and last line. -/
theorem test_crc_update :
    (nextOf (exec (.crcUpdate 0x01) { State.reset with crc := 0xFFFF })).map State.crc = some 0x807E ∧
      (nextOf (exec (.crcUpdate 0x0A) { State.reset with crc := 0x8419 })).map State.crc = some 0xCDC5 := by decide +kernel

theorem test_crc_init : (nextOf (exec .crcInit { State.reset with crc := 0x1234 })).map State.crc = some 0xFFFF := by decide

/-- V3, T-C6. -/
theorem test_checksum_example :
    returned (exec (.checksum [0x01, 0x03, 0x00, 0x00, 0x00, 0x0A] 6) State.reset) = some (.word 0xCDC5) := by decide +kernel

/-- T-C4. -/
theorem test_checksum_length :
    returned (exec (.checksum [0x01, 0x03, 0x00] 0) State.reset) = some (.word 0xFFFF) ∧
      returned (exec (.checksum [0x01, 0x03, 0x00] 1) State.reset) = some (.word 0x807E) ∧
      exec (.checksum [0x01, 0x03, 0x00] 4) State.reset = .refused .checksumLengthOutsideContract := by
  refine ⟨by decide +kernel, by decide +kernel, rfl⟩

/-- T-C5. -/
theorem test_crc_check :
    returned (exec (.crcCheck 8) (holding [0x01, 0x03, 0x00, 0x00, 0x00, 0x0A, 0xC5, 0xCD])) = some (.flag true) ∧
      returned (exec (.crcCheck 8) (holding [0x01, 0x03, 0x00, 0x00, 0x00, 0x0A, 0xCD, 0xC5])) = some (.flag false) := by
  decide +kernel

/-! ### The reassembler and the noise synchronizer -/

/-- T-R5, the second call: R127. -/
theorem test_step_response :
    returned (exec .step (holding [0x11, 0x03, 0x06, 0xAE, 0x41, 0x56, 0x52, 0x43])) = some (.verdict .needMore) ∧
      returned (exec .step (holding [0x11, 0x03, 0x06, 0xAE, 0x41, 0x56, 0x52, 0x43, 0x40, 0x49, 0xAD])) =
        some (.verdict .frame) := by decide +kernel

/-- R124: a damaged exception frame costs one byte. -/
theorem test_step_noise :
    seen (exec .step (holding [0x01, 0x83, 0x02, 0xC0, 0xF0])) = some ([], .opened [0x01], [0x83, 0x02, 0xC0, 0xF0]) := by
  decide +kernel

/-- T-R7. -/
theorem test_drain :
    seen (exec .drain (holding [0x01, 0x03, 0x00, 0x00, 0x00, 0x0A, 0xC5, 0xCD, 0x01, 0x83, 0x02, 0xC0, 0xF1, 0x11, 0x01])) =
      some ([.frame (.request 0x01 0x03 (.addrQty 0 10)), .frame (.exception 0x01 3 2)], .closed, [0x11, 0x01]) := by
  decide +kernel

/-- V4. -/
theorem test_ingest_resynchronises :
    seen (exec (.ingest [0xFF, 0xFF, 0x01, 0x03, 0x00, 0x00, 0x00, 0x0A, 0xC5, 0xCD]) State.reset) =
      some ([.noiseRun [0xFF, 0xFF], .frame (.request 0x01 0x03 (.addrQty 0 10))], .closed, []) := by decide +kernel

/-- T-R8 (b), T-R9. -/
theorem test_ingest_leaves_open_run :
    seen (exec (.ingest [0x00, 0x00]) (holding [0x01, 0x01, 0x00, 0x21, 0x90, 0x55])) =
      some ([.frame (.response 0x01 0x01 (.payload 0 []))], .opened [0x55], [0x00, 0x00]) := by decide +kernel

/-- R156, the example. -/
theorem test_noise_step :
    seen (exec .noiseStep (holding [0xFF, 0xFF, 0x01, 0x03, 0x00])) =
      some ([], .opened [0xFF], [0xFF, 0x01, 0x03, 0x00]) ∧
      seen (exec (.unknownFc 0x11 0x07) { holding [0x11, 0x07, 0x00] with noise := .opened [0x22] }) =
        some ([], .opened [0x22, 0x11], [0x07, 0x00]) := by decide +kernel

/-- R157: the run before the frame. -/
theorem test_emit_frame :
    seen (exec (.emitFrame 5 (.exception 1 3 2)) { holding [0x01, 0x83, 0x02, 0xC0, 0xF1, 0x77] with noise := .opened [0x33] }) =
      some ([.noiseRun [0x33], .frame (.exception 1 3 2)], .closed, [0x77]) := by decide +kernel

/-- R154: the masked function code. -/
theorem test_exception_event :
    seen (exec (.exc 0x0A 0xFF 0x04) (holding [0x0A, 0xFF, 0x04, 0x11, 0xF1])) =
      some ([.frame (.exception 0x0A 127 4)], .closed, []) := by decide +kernel

/-- R103: the row has the meaning its rule gives it, though no bytes decode to it. -/
theorem test_fc06_response_event :
    seen (exec (.fc06Rsp 0x11 1 3) (holding [0x11, 0x06, 0x00, 0x01, 0x00, 0x03, 0x9A, 0x9B])) =
      some ([.frame (.response 0x11 0x06 (.addrData 1 3))], .closed, []) := by decide +kernel

/-- R38, R183, the host's side: a queued call is served when the front waits, and not before. -/
theorem test_step_serves_call :
    (nextOf (step { State.reset with calls := [.ingest [0x11], .checksum [] 0] })).map (fun t => (t.buf, t.calls)) =
      some ([0x11], [.checksum [] 0]) ∧
      (nextOf (step { holding [0x11, 0x07, 0x00] with calls := [.ingest [0x11]] })).map (fun t => (t.buf, t.calls)) =
        some ([0x07, 0x00], [.ingest [0x11]]) := by decide +kernel

theorem test_idle_step : nextOf (step State.reset) = some State.reset := by decide

/-- R160 on T-S13 and T-S19. -/
theorem test_wire_bytes :
    Event.wireBytes (.frame (.request 0x11 0x0F (.addrQtyPayload 0x0013 0x000A 2 [0xCD, 0x01]))) =
      [0x11, 0x0F, 0x00, 0x13, 0x00, 0x0A, 0x02, 0xCD, 0x01, 0xBF, 0x0B] ∧
      Event.wireBytes (.frame (.exception 1 3 2)) = [0x01, 0x83, 0x02, 0xC0, 0xF1] := by decide +kernel

/-- T-H1. -/
theorem test_timeout :
    silenceTimeout 300 = some (11 / 100) ∧ silenceTimeout 9600 = some (34375 / 10000000) ∧
      silenceTimeout 19199 = some (33 / 19199) ∧ silenceTimeout 19200 = some (175 / 100000) ∧ silenceTimeout 0 = none := by
  refine ⟨?_, ?_, ?_, ?_, ?_⟩ <;> norm_num [silenceTimeout]

/-- T-H1 over the reals: the strict threshold, and a rate that is no rational number. -/
theorem test_timeout_of_reals :
    IsSilenceTimeout 9600 0.0034375 ∧ IsSilenceTimeout 19200 0.00175 ∧ ¬ IsSilenceTimeout 19200 (33 / 19200) ∧
      IsSilenceTimeout (Real.sqrt 2) (33 / Real.sqrt 2) := by
  refine ⟨?_, ?_, ?_, ?_, .inl ⟨?_, rfl⟩⟩
  · norm_num [IsSilenceTimeout]
  · norm_num [IsSilenceTimeout]
  · norm_num [IsSilenceTimeout]
  · positivity
  · rw [Real.sqrt_lt' (by norm_num)]
    norm_num

/-! ### Witnesses: states and operands that meet the hypotheses of each statement, at the boundaries of its clauses -/

theorem witness_ChecksumIsInitThenUpdates : 0 ≤ ([] : List Byte).length ∧ 2 ≤ ([1, 2] : List Byte).length := by decide

theorem witness_ChecksumBeyondBytesRefused : ([] : List Byte).length < 1 ∧ ([1, 2] : List Byte).length < 3 := by decide

theorem witness_CrcCheckComparesTrailingBytes :
    (4 ≤ 4 ∧ 4 ≤ (holding [1, 2, 3, 4]).buf.length) ∧ (4 ≤ 5 ∧ 5 ≤ (holding [1, 0x83, 2, 0xC0, 0xF1]).buf.length) := by decide

theorem witness_CrcCheckOutsideContractStops : 3 < 4 ∧ 4 ≤ 4 ∧ (holding [1, 2, 3]).buf.length < 4 := by decide

theorem witness_RequestRowsEmitTheirEvent :
    8 ≤ (holding (List.replicate 8 0)).buf.length ∧ 9 + (0 : Byte).toNat ≤ (holding (List.replicate 9 0)).buf.length ∧
      9 + (0xFF : Byte).toNat ≤ (holding (List.replicate 264 0)).buf.length ∧
      13 + (0xFF : Byte).toNat ≤ (holding (List.replicate 268 0)).buf.length := by decide +kernel

theorem witness_ResponseRowsEmitTheirEvent :
    5 + (0 : Byte).toNat ≤ (holding (List.replicate 5 0)).buf.length ∧
      5 + (0xFF : Byte).toNat ≤ (holding (List.replicate 260 0)).buf.length ∧
      6 ≤ (holding (List.replicate 6 0)).buf.length ∧ 8 ≤ (holding (List.replicate 8 0)).buf.length := by decide +kernel

theorem witness_ExceptionRowEmitsItsEvent : 5 ≤ (holding [1, 0x83, 2, 0xC0, 0xF1]).buf.length := by decide

theorem witness_EmitFrameClosesTheRunFirst :
    5 ≤ (holding [1, 0x83, 2, 0xC0, 0xF1]).buf.length ∧ (holding [1, 0x83, 2, 0xC0, 0xF1]).noise = .closed ∧
      ({ holding [1, 0x83, 2, 0xC0, 0xF1] with noise := .opened [7] } : State).noise = .opened [7] := by decide

theorem witness_NoiseStepMovesOneByte :
    (holding [1]).buf = 1 :: [] ∧ (holding [1]).noise = .closed ∧
      ({ holding [1] with noise := .opened [7] } : State).noise = .opened [7] := by decide

theorem witness_PastTheEndOfBufStops :
    Instr.wf (.exc 1 0x83 2) = true ∧ bodyOf (.exc 1 0x83 2) = some [1, 0x83, 2] ∧
      (holding [1, 0x83, 2, 0xC0]).buf.length < [1, 0x83, 2].length + 2 ∧ (holding []).buf.length < 1 ∧
      (holding []).buf = [] := by decide

theorem witness_HeaderCheckWaits : (holding []).buf.length < 3 ∧ (holding [0x11, 0x07]).buf.length < 3 := by decide

/-- Two bytes and four, five that fit and five that do not; the least and the greatest code. -/
theorem witness_ExceptionBranchOfStep :
    (0x80 : Byte) &&& 0x80 ≠ 0 ∧ (0xFF : Byte) &&& 0x80 ≠ 0 ∧ ([] : List Byte).length < 3 ∧ ([2, 0xC0] : List Byte).length < 3 ∧
      ((0xC0 : Byte) = lowByte (checksum [1, 0x83, 2] 3) ∧ (0xF1 : Byte) = highByte (checksum [1, 0x83, 2] 3)) ∧
      ¬ ((0xC0 : Byte) = lowByte (checksum [1, 0x83, 2] 3) ∧ (0xF0 : Byte) = highByte (checksum [1, 0x83, 2] 3)) := by
  decide +kernel

theorem witness_UnknownCodeIsOneNoiseByte :
    ∀ fc ∈ ([0x00, 0x07, 0x0E, 0x11, 0x16, 0x18, 0x7F] : List Byte),
      fc &&& 0x80 = 0 ∧ fc ∉ ([1, 2, 3, 4, 5, 6, 15, 16, 23] : List Byte) := by decide

/-- Seven bytes of a request that needs eight, and the eight. -/
theorem witness_RequestAttemptOfStep :
    lookup 0x01 = some (.fc01Req, .fc01Rsp) ∧
      need Shape.fc01Req.layout (holding [0x11, 0x01, 0x00, 0x13, 0x00, 0x25, 0x0E]).buf = none ∧
      need Shape.fc01Req.layout (holding [0x11, 0x01, 0x00, 0x13, 0x00, 0x25, 0x0E, 0x84]).buf = some 8 ∧
      crcMatches (holding [0x11, 0x01, 0x00, 0x13, 0x00, 0x25, 0x0E, 0x84]).buf 8 = true := by decide +kernel

/-- R127, R128: a response that waits, one that fits, one that does not. -/
theorem witness_ResponseAttemptOfStep :
    lookup 0x03 = some (.fc03Req, .fc03Rsp) ∧
      (need Shape.fc03Req.layout (holding [0x11, 3, 6, 0xAE, 0x41, 0x56, 0x52, 0x43]).buf = some 8 ∧
        crcMatches (holding [0x11, 3, 6, 0xAE, 0x41, 0x56, 0x52, 0x43]).buf 8 = false ∧
        need Shape.fc03Rsp.layout (holding [0x11, 3, 6, 0xAE, 0x41, 0x56, 0x52, 0x43]).buf = none) ∧
      (need Shape.fc03Req.layout (holding [0x11, 3, 6, 0xAE, 0x41, 0x56, 0x52, 0x43, 0x40, 0x49, 0xAD]).buf = some 8 ∧
        crcMatches (holding [0x11, 3, 6, 0xAE, 0x41, 0x56, 0x52, 0x43, 0x40, 0x49, 0xAD]).buf 8 = false ∧
        need Shape.fc03Rsp.layout (holding [0x11, 3, 6, 0xAE, 0x41, 0x56, 0x52, 0x43, 0x40, 0x49, 0xAD]).buf = some 11 ∧
        crcMatches (holding [0x11, 3, 6, 0xAE, 0x41, 0x56, 0x52, 0x43, 0x40, 0x49, 0xAD]).buf 11 = true) ∧
      (need Shape.fc03Req.layout (holding [1, 3, 0, 0, 0, 0x0B, 0xC5, 0xCD]).buf = some 8 ∧
        crcMatches (holding [1, 3, 0, 0, 0, 0x0B, 0xC5, 0xCD]).buf 8 = false ∧
        need Shape.fc03Rsp.layout (holding [1, 3, 0, 0, 0, 0x0B, 0xC5, 0xCD]).buf = some 5 ∧
        crcMatches (holding [1, 3, 0, 0, 0, 0x0B, 0xC5, 0xCD]).buf 5 = false) := by decide +kernel

theorem witness_StepConsumesByVerdict :
    decode (holding [0x11, 0x07]).buf = .needMore .header ∧
      decode (holding [0x11, 0x07, 0x00]).buf = .noiseByte (.unknownFc 0x11 0x07) ∧
      decode (holding [1, 0x83, 2, 0xC0, 0xF1]).buf = .frame 5 (.exc 1 0x83 2) := by decide +kernel

theorem witness_ReadRequestsOnTheWire :
    (0x0E : Byte) = lowByte (checksum [0x11, 0x01, 0x00, 0x13, 0x00, 0x25] 6) ∧
      (0x84 : Byte) = highByte (checksum [0x11, 0x01, 0x00, 0x13, 0x00, 0x25] 6) ∧
      ((holding [0x11, 0x04, 0, 0, 0, 0, 0]).buf[1]? = some 0x04 ∧ 3 ≤ (holding [0x11, 0x04, 0, 0, 0, 0, 0]).buf.length ∧
        (holding [0x11, 0x04, 0, 0, 0, 0, 0]).buf.length < 8) := by decide +kernel

/-- R101: a request, a response with two bytes behind it, neither; seven bytes. -/
theorem witness_SingleCoilWriteOnTheWire :
    le16Bytes (checksum [0x11, 0x05, 0x00, 0xAC, 0xFF, 0x00] 6) = [0x4E, 0x8B] ∧
      (le16Bytes (checksum [0x11, 0x05, 0x00, 0xAC, 0x15, 0x64] 6) ≠ [0x11, 0x05] ∧
        le16Bytes (checksum [0x11, 0x05, 0x00, 0xAC] 4) = [0x15, 0x64]) ∧
      (le16Bytes (checksum [0x11, 0x05, 0x00, 0xAC, 0xFF, 0x00] 6) ≠ [0x4E, 0x8C] ∧
        le16Bytes (checksum [0x11, 0x05, 0x00, 0xAC] 4) ≠ [0xFF, 0x00]) ∧
      ((holding [0x11, 0x05, 0, 0, 0, 0, 0]).buf[1]? = some 0x05 ∧ (holding [0x11, 0x05, 0, 0, 0, 0, 0]).buf.length < 8) := by
  decide +kernel

theorem witness_SingleRegisterWriteOnTheWire :
    le16Bytes (checksum [0x11, 0x06, 0x00, 0x01, 0x00, 0x03] 6) = [0x9A, 0x9B] ∧
      le16Bytes (checksum [0x11, 0x06, 0x00, 0x01, 0x00, 0x03] 6) ≠ [0x9A, 0x9C] ∧
      ((holding [0x11, 0x06, 0, 0, 0, 0, 0]).buf[1]? = some 0x06 ∧ (holding [0x11, 0x06, 0, 0, 0, 0, 0]).buf.length < 8) := by
  decide +kernel

/-- Six bytes and, with the count byte there, one byte too few; ten and one too few. -/
theorem witness_VariableRequestsOnTheWire :
    ([] : List Byte).length = (0 : Byte).toNat ∧ (List.replicate 255 (0 : Byte)).length = (0xFF : Byte).toNat ∧
      (holding (frame ([0x11, 0x0F] ++ be16Bytes 0 ++ be16Bytes 0 ++ [0] ++ []))).buf =
        frame ([0x11, 0x0F] ++ be16Bytes 0 ++ be16Bytes 0 ++ [0] ++ []) ++ [] ∧
      ((holding [0x11, 0x10, 0, 0, 0, 0]).buf[1]? = some 0x10 ∧ (holding [0x11, 0x10, 0, 0, 0, 0]).buf.length < 7) ∧
      ((holding [0x11, 0x0F, 0, 0, 0, 0, 0, 0]).buf[6]? = some (0 : Byte) ∧
        (holding [0x11, 0x0F, 0, 0, 0, 0, 0, 0]).buf.length < 9 + (0 : Byte).toNat) ∧
      ((holding (0x11 :: 0x17 :: List.replicate 8 0)).buf[1]? = some 0x17 ∧
        (holding (0x11 :: 0x17 :: List.replicate 8 0)).buf.length < 11) ∧
      ((holding (0x11 :: 0x17 :: List.replicate 10 0)).buf[10]? = some (0 : Byte) ∧
        (holding (0x11 :: 0x17 :: List.replicate 10 0)).buf.length < 13 + (0 : Byte).toNat) := by decide +kernel

theorem witness_ReadResponsesOnTheWire :
    [0xAC, 0xDB].length = (2 : Byte).toNat ∧
      (holding [0x11, 0x02, 0x02, 0xAC, 0xDB, 0x45, 0x20, 0x11]).buf = frame ([0x11, 0x02, 0x02] ++ [0xAC, 0xDB]) ++ [0x11] ∧
      8 ≤ (holding [0x11, 0x02, 0x02, 0xAC, 0xDB, 0x45, 0x20, 0x11]).buf.length ∧
      crcMatches (holding [0x11, 0x02, 0x02, 0xAC, 0xDB, 0x45, 0x20, 0x11]).buf 8 = false := by decide +kernel

theorem witness_WriteResponsesOnTheWire :
    ((holding ([0x11, 0x10, 0, 1, 0, 2, 0x12, 0x98] ++ List.replicate 19 1)).buf =
        frame ([0x11, 0x10] ++ be16Bytes 1 ++ be16Bytes 2) ++ List.replicate 19 1 ∧
      (holding ([0x11, 0x10, 0, 1, 0, 2, 0x12, 0x98] ++ List.replicate 19 1)).buf[6]? = some (0x12 : Byte) ∧
      9 + (0x12 : Byte).toNat ≤ (holding ([0x11, 0x10, 0, 1, 0, 2, 0x12, 0x98] ++ List.replicate 19 1)).buf.length ∧
      crcMatches (holding ([0x11, 0x10, 0, 1, 0, 2, 0x12, 0x98] ++ List.replicate 19 1)).buf (9 + (0x12 : Byte).toNat) = false) ∧
    ((holding (frame ([0x11, 0x17, 12] ++ [0, 0xFE, 0x0A, 0xCD, 0, 1, 0, 3, 0, 0x0D, 0, 0xFF]))).buf[10]? = some (3 : Byte) ∧
      13 + (3 : Byte).toNat ≤ (holding (frame ([0x11, 0x17, 12] ++ [0, 0xFE, 0x0A, 0xCD, 0, 1, 0, 3, 0, 0x0D, 0, 0xFF]))).buf.length ∧
      crcMatches (holding (frame ([0x11, 0x17, 12] ++ [0, 0xFE, 0x0A, 0xCD, 0, 1, 0, 3, 0, 0x0D, 0, 0xFF]))).buf
        (13 + (3 : Byte).toNat) = false) := by decide +kernel

/-- A state no run reaches, whose output holds such an event already, idles. -/
theorem witness_CodeSixIsNeverAResponse :
    step { State.reset with out := [.frame (.response 1 6 (.addrData 0 0))] } =
      .next { State.reset with out := [.frame (.response 1 6 (.addrData 0 0))] } := rfl

theorem witness_ThreeByteReadResponseIsARequest :
    (holding [0x11, 0x02, 0x03, 0xAC, 0xDB, 0x35, 0x20, 0x18]).buf = frame [0x11, 0x02, 3, 0xAC, 0xDB, 0x35] ++ [] := by
  decide +kernel

theorem witness_DrainRepeatsStep :
    returned (exec .step State.reset) = some (.verdict .needMore) ∧
      returned (exec .step (holding [0x11, 0x07, 0x00])) = some (.verdict .noiseByte) := by decide +kernel

/-- From reset and from two pending bytes; and an `INGEST` that answers a next state. -/
theorem witness_EmptyChunkChangesNothing :
    awaitingBytes State.reset = true ∧ awaitingBytes (holding [0xFF, 0xFF]) = true ∧
      nextOf (exec (.ingest [0xFF, 0xFF]) State.reset) = some (holding [0xFF, 0xFF]) := by decide +kernel

/-- The bound is reached (T-S24). -/
theorem witness_BufferBoundAfterIngest :
    (nextOf (exec (.ingest ([0x11, 0x17, 0, 0, 0, 0, 0, 0, 0, 0, 0xFF] ++ List.replicate 256 0)) State.reset)).map
      (fun t => t.buf.length) = some 267 := by decide +kernel

theorem witness_MoreBytesKeepTheVerdict :
    (decode [0x11, 0x07, 0x00]).waits = false ∧ (decode [1, 0x83, 2, 0xC0, 0xF1]).waits = false := by decide +kernel

theorem witness_ChunkBoundariesDoNotMatter : ([[], [1], []] : List (List Byte)) ≠ [] := by decide

/-- A step of each kind answers a next state: a frame with a run open, a noise byte, a call, an idle step. -/
theorem witness_EveryByteIsAccountedFor :
    (nextOf (step { holding [1, 0x83, 2, 0xC0, 0xF1] with noise := .opened [7] })).isSome = true ∧
      (nextOf (step (holding [0x11, 0x07, 0x00]))).isSome = true ∧
      (nextOf (step { State.reset with calls := [.ingest [1, 2, 3]] })).isSome = true ∧
      (nextOf (step State.reset)).isSome = true := by decide +kernel

theorem witness_StepKeepsRunInvariant :
    State.Inv { holding [1, 0x83, 2, 0xC0, 0xF1] with
        noise := .opened [7], out := [.noiseRun [1], .frame (.exception 0 0 0)] } ∧
      (nextOf (step { holding [1, 0x83, 2, 0xC0, 0xF1] with
        noise := .opened [7], out := [.noiseRun [1], .frame (.exception 0 0 0)] })).isSome = true := by
  refine ⟨⟨rfl, rfl⟩, by decide +kernel⟩

theorem witness_StepNeverStopsInContract :
    State.callsInContract { State.reset with calls := [.checksum [1] 1, .ingest [2]] } = true := by decide

theorem witness_OutputOnlyGrows : (nextOf (step (holding [1, 0x83, 2, 0xC0, 0xF1]))).map State.out =
    some [.frame (.exception 1 3 2)] := by decide +kernel

/-- Both ways out: the run extended, and closed by a frame. -/
theorem witness_OpenRunPersistsUntilAFrame :
    (nextOf (step { holding [0x11, 0x07, 0x00] with noise := .opened [7] })).map State.noise = some (.opened [7, 0x11]) ∧
      (nextOf (step { holding [1, 0x83, 2, 0xC0, 0xF1] with noise := .opened [7] })).map State.out =
        some [.noiseRun [7], .frame (.exception 1 3 2)] := by decide +kernel

theorem witness_ClassificationForgetsHistory :
    ({ State.reset with out := [.frame (.exception 0 0 0)], crc := 7 } : State).buf = State.reset.buf ∧
      ({ State.reset with out := [.frame (.exception 0 0 0)], crc := 7 } : State).noise = State.reset.noise ∧
      (nextOf (exec (.ingest [1, 0x83, 2, 0xC0, 0xF1]) State.reset)).isSome = true ∧
      (nextOf (exec (.ingest [1, 0x83, 2, 0xC0, 0xF1]) { State.reset with out := [.frame (.exception 0 0 0)], crc := 7 })).isSome =
        true := by decide +kernel

theorem witness_StepRunsTheDecodedInstruction :
    decode (holding [1, 0x83, 2, 0xC0, 0xF1]).buf = .frame 5 (.exc 1 0x83 2) ∧
      decode (holding [0x11, 0x07, 0x00]).buf = .noiseByte (.unknownFc 0x11 0x07) ∧
      decode State.reset.buf = .needMore .header ∧ State.reset.calls = [] ∧
      ({ State.reset with calls := [.ingest [1]] } : State).calls = .ingest [1] :: [] ∧
      ({ State.reset with calls := [.checksum [1] 1] } : State).calls = .checksum [1] 1 :: [] := by decide +kernel

/-- A request, which needs nothing of the bytes, and a response, whose request shape mismatches on them. -/
theorem witness_DecodeOfEncodeIsTheInstruction :
    (Instr.wf (.fc03Req 1 0 10) = true ∧ (Instr.fc03Req 1 0 10).shape? = some .fc03Req ∧
      encode (.fc03Req 1 0 10) = some [1, 3, 0, 0, 0, 0x0A, 0xC5, 0xCD] ∧ Shape.fc03Req.requestOf = none) ∧
    (Instr.wf (.fc02Rsp 0x11 2 [0xAC, 0xDB]) = true ∧ (Instr.fc02Rsp 0x11 2 [0xAC, 0xDB]).shape? = some .fc02Rsp ∧
      encode (.fc02Rsp 0x11 2 [0xAC, 0xDB]) = some [0x11, 2, 2, 0xAC, 0xDB, 0x45, 0x20] ∧
      Shape.fc02Rsp.requestOf = some .fc02Req ∧
      tryShape .fc02Req ([0x11, 2, 2, 0xAC, 0xDB, 0x45, 0x20] ++ [0x11]) = .mismatch) := by decide +kernel

theorem witness_EncodeOfDecodeIsTheBytes :
    decode [1, 0x83, 2, 0xC0, 0xF1, 0x77] = .frame 5 (.exc 1 0x83 2) := by decide +kernel

theorem witness_EventDeterminesItsBytes :
    decode (holding [1, 0x83, 2, 0xC0, 0xF1, 0x77]).buf = .frame 5 (.exc 1 0x83 2) := by decide +kernel

theorem witness_DriverReadsAreIngested : awaitingBytes State.reset = true ∧ State.reset.calls = [] := by decide

/-- An irrational rate in the first range, both sides of the threshold, and a rate outside the contract. -/
theorem witness_SilenceTimeoutFormula :
    (0 < Real.sqrt 2 ∧ Real.sqrt 2 < 19200) ∧ ((0 : ℝ) < 19199 ∧ (19199 : ℝ) < 19200) ∧ (19200 : ℝ) ≤ 19200 ∧ (0 : ℝ) ≤ 0 := by
  refine ⟨⟨by positivity, ?_⟩, by norm_num, le_refl _, le_refl _⟩
  rw [Real.sqrt_lt' (by norm_num)]
  norm_num

theorem witness_EvaluatedSilenceTimeoutAgrees :
    ((0 : ℚ) < 19199 ∧ (19199 : ℚ) < 19200) ∧ (19200 : ℚ) ≤ 19200 ∧ (0 : ℚ) ≤ 0 := by norm_num

theorem witness_InstancesAreIndependent :
    (match stepInstance 1 [State.reset, holding [0x11, 0x07, 0x00]] with
      | .next fleet => fleet.length
      | .fault _ => 0
      | .refused _ => 0) = 2 := by decide +kernel

theorem witness_CatalogLookup :
    ((0x07 : Byte) &&& 0x80 = 0 ∧ (0x07 : Byte) ∉ ([1, 2, 3, 4, 5, 6, 15, 16, 23] : List Byte)) ∧
      (([1, 0x83, 2, 0xC0, 0xF1] : List Byte)[1]? = some 0x83 ∧ (0x83 : Byte) &&& 0x80 ≠ 0 ∧
        decode [1, 0x83, 2, 0xC0, 0xF1] = .frame 5 (.exc 1 0x83 2)) := by decide +kernel

end Sys2Proof.Tests
end

/-! ### Encoding: the function-code byte and the noise verdict -/

namespace Sys2Proof.Machine

/-- The exception test reads bit 7 alone (R55). -/
theorem isException_eq_false_iff {fc : Byte} : isException fc = false ↔ fc &&& 0x80 = 0 := by
  simp [isException, excBit]

/-- The catalog has an entry for exactly the nine codes of R90. -/
theorem lookup_eq_none_iff {fc : Byte} :
    lookup fc = none ↔ fc ∉ ([1, 2, 3, 4, 5, 6, 15, 16, 23] : List Byte) := by
  simp [lookup, ite_eq_iff]

/-- With the header there, an unknown code is a noise verdict, whatever bytes follow it (R125). -/
theorem decode_unknown {u fc x : Byte} {rest : List Byte} (he : isException fc = false) (hl : lookup fc = none) :
    decode (u :: fc :: x :: rest) = .noiseByte (.unknownFc u fc) := by
  simp [decode, he, hl]

/-- A pass at a noise verdict moves the front byte to the run (R156, R173). -/
theorem pass_of_decode_noiseByte {s : State} {i : Instr} {b : Byte} {rest : List Byte}
    (hd : decode s.buf = .noiseByte i) (hb : s.buf = b :: rest) :
    pass s = .next (.noiseByte, { s with buf := rest, noise := s.noise.push b }) := by
  rcases pass_cases s with ⟨w, hw, -⟩ | ⟨j, c, tail, -, hc, -, -, hp⟩ | ⟨len, j, ev, r, hf, -⟩
  · simp [hd] at hw
  · obtain ⟨rfl, rfl⟩ : b = c ∧ rest = tail := by simpa [hb] using hc
    exact hp
  · simp [hd] at hf

/-- STEP returns the verdict of its one pass (R122). -/
theorem exec_step_of_pass {s t : State} {v : Verdict} (h : pass s = .next (v, t)) :
    exec .step s = .next { t with ret := some (.verdict v) } := by
  simp [exec, execStep, h, answer]

/-- Of the 128 codes with bit 7 clear, the nine of the catalog are not unknown (R56). -/
theorem unknown_code_count :
    ((List.range 256).filter fun n => (BitVec.ofNat 8 n &&& 0x80 == (0 : Byte)) &&
      !(([1, 2, 3, 4, 5, 6, 15, 16, 23] : List Byte).contains (BitVec.ofNat 8 n))).length = 119 := by
  decide +kernel

/-- Settles O22: an unknown code decodes to a noise verdict, whose pass moves the front byte; the codes are counted. -/
theorem unknownCodeIsOneNoiseByte : Obligations.UnknownCodeIsOneNoiseByte := by
  refine ⟨fun s u fc x rest hb he hl => ?_, unknown_code_count⟩
  have hd : decode s.buf = .noiseByte (.unknownFc u fc) := by
    rw [hb]
    exact decode_unknown (isException_eq_false_iff.mpr he) (lookup_eq_none_iff.mpr hl)
  exact exec_step_of_pass (pass_of_decode_noiseByte hd hb)

end Sys2Proof.Machine

/-! ### The checksum engine: the start value and the test of the trailing bytes -/

namespace Sys2Proof.Machine

/-- CRC_INIT writes the scratch alone (R72). -/
@[simp] theorem exec_crcInit (s : State) : exec .crcInit s = .next { s with crc := crcStart } := rfl

@[simp] theorem lowByte_crcStart : lowByte crcStart = 0xFF := by decide

@[simp] theorem highByte_crcStart : highByte crcStart = 0xFF := by decide

/-- Settles O3: the state of `exec_crcInit`, and the two bytes of the start value. -/
theorem crcInitLoadsStartValue : Obligations.CrcInitLoadsStartValue :=
  fun s => ⟨{ s with crc := crcStart }, exec_crcInit s, rfl, lowByte_crcStart, highByte_crcStart⟩

/-- On its operand range CRC_CHECK answers the checksum test and writes nothing else (R77). -/
theorem exec_crcCheck {s : State} {len : Nat} (h4 : 4 ≤ len) (hlen : len ≤ s.buf.length) :
    exec (.crcCheck len) s = .next { s with ret := some (.flag (crcMatches s.buf len)) } := by
  simp [exec, execCrcCheck, answer, Nat.not_lt.mpr h4, Nat.not_lt.mpr hlen]

/-- The checksum test compares the two trailing bytes, low byte first, with those of the computed value (R33, R77). -/
theorem crcMatches_eq_of_trailing {b : List Byte} {len : Nat} {lo hi : Byte} (h2 : 2 ≤ len)
    (hlo : b[len - 2]? = some lo) (hhi : b[len - 1]? = some hi) :
    crcMatches b len =
      (lo == lowByte (checksum b (len - 2)) && hi == highByte (checksum b (len - 2))) := by
  have hnext : len - 2 + 1 = len - 1 := by omega
  rw [Bool.eq_iff_iff]
  simp only [crcMatches, csumBytes, beq_iff_eq, le16At_eq_some, hnext, hlo, hhi, Option.some.injEq, Bool.and_eq_true]

/-- Settles O11: both trailing bytes are within the buffer, and the test that `exec_crcCheck` answers compares them. -/
theorem crcCheckComparesTrailingBytes : Obligations.CrcCheckComparesTrailingBytes := by
  intro s len h4 hlen
  have hlo : s.buf[len - 2]? = some s.buf[len - 2] := List.getElem?_eq_getElem (by omega)
  have hhi : s.buf[len - 1]? = some s.buf[len - 1] := List.getElem?_eq_getElem (by omega)
  refine ⟨_, _, hlo, hhi, ?_⟩
  rw [exec_crcCheck h4 hlen, crcMatches_eq_of_trailing (by omega) hlo hhi]

end Sys2Proof.Machine

/-! ### The shape catalog on the wire: lookup, requests, responses and waits of the nine codes -/

namespace Sys2Proof.Machine

/-! #### The catalog (R90) -/

/-- A catalogued code has bit 7 clear (R55, R90). -/
theorem isException_eq_false_of_lookup {fc : Byte} {shapes : Shape × Shape} (hl : lookup fc = some shapes) :
    isException fc = false := by
  have catalogued : ∀ c ∈ ([1, 2, 3, 4, 5, 6, 15, 16, 23] : List Byte), isException c = false := by decide
  apply catalogued
  by_contra hfc
  simp [lookup_eq_none_iff.mpr hfc] at hl

/-- A code with bit 7 set selects the exception shape alone (R55). -/
theorem eq_exc_of_selectedBy {sh : Shape} {fc : Byte} (he : isException fc = true) (hf : sh.selectedBy fc = true) :
    sh = .exc := by
  cases sh with
  | exc => rfl
  | _ =>
    obtain rfl := beq_iff_eq.mp hf
    exact absurd he (by decide)

/-- The verdict UNKNOWN_FC names the code at offset 1, and that code has bit 7 clear (R56). -/
theorem code_of_decode_unknown {b : List Byte} {u f : Byte} (h : decode b = .noiseByte (.unknownFc u f)) :
    b[1]? = some f ∧ isException f = false := by
  unfold decode at h
  split at h
  · rename_i unit fc _ _
    split at h
    · split at h <;> simp at h
    · rename_i he
      split at h
      · simp only [Front.noiseByte.injEq, Instr.unknownFc.injEq] at h
        obtain ⟨rfl, rfl⟩ := h
        exact ⟨rfl, by simpa using he⟩
      · split at h
        · simp at h
        · simp at h
        · split at h <;> simp at h
  · simp at h

/-- Settles O19: the nine entries by evaluation, the rest from what the code at offset 1 can select. -/
theorem catalogLookup : Obligations.CatalogLookup := by
  refine ⟨rfl, rfl, rfl, rfl, rfl, rfl, rfl, rfl, rfl, fun fc _ hfc => lookup_eq_none_iff.mpr hfc, ?_⟩
  intro b fc h1 hbit
  have he : isException fc = true := by simpa [isException, excBit] using hbit
  constructor
  · intro len i hd
    obtain ⟨fc', sh, h1', hf, ht⟩ := decode_frame hd
    obtain rfl : fc = fc' := Option.some.inj (h1.symm.trans h1')
    obtain rfl := eq_exc_of_selectedBy he hf
    exact (tryShape_matched h1 hf ht).1
  · intro u f hd
    obtain ⟨h1', hf⟩ := code_of_decode_unknown hd
    obtain rfl : fc = f := Option.some.inj (h1.symm.trans h1')
    simp [he] at hf

/-! #### The verdict at a catalogued code (R126 to R128) -/

section CataloguedCode

variable {b : List Byte} {fc : Byte} {req rsp : Shape}

/-- The header is there: three bytes, the code at offset 1. -/
theorem header_of_getElem? (h1 : b[1]? = some fc) (h3 : 3 ≤ b.length) : ∃ u x rest, b = u :: fc :: x :: rest := by
  match b with
  | [] | [_] | [_, _] => simp at h3
  | u :: f :: x :: rest =>
    obtain rfl : f = fc := by simpa using h1
    exact ⟨u, x, rest, rfl⟩

variable (h1 : b[1]? = some fc) (h3 : 3 ≤ b.length) (hl : lookup fc = some (req, rsp))
include h1 h3 hl

/-- While the request shape's length is not there the verdict is to wait (R126). -/
theorem decode_of_request_insufficient (hn : need req.layout b = none) : decode b = .needMore .requestShape := by
  have ht := tryShape_insufficient_iff.mpr hn
  obtain ⟨u, x, rest, rfl⟩ := header_of_getElem? h1 h3
  simp [decode, isException_eq_false_of_lookup hl, hl, ht]

/-- A matched request shape is the verdict (R126). -/
theorem decode_of_request_matched {len : Nat} {i : Instr} (ht : tryShape req b = .matched len i) :
    decode b = .frame len i := by
  obtain ⟨u, x, rest, rfl⟩ := header_of_getElem? h1 h3
  simp [decode, isException_eq_false_of_lookup hl, hl, ht]

/-- After a request mismatch a matched response shape is the verdict (R127). -/
theorem decode_of_response_matched {len : Nat} {i : Instr} (hq : tryShape req b = .mismatch)
    (ht : tryShape rsp b = .matched len i) : decode b = .frame len i := by
  obtain ⟨u, x, rest, rfl⟩ := header_of_getElem? h1 h3
  simp [decode, isException_eq_false_of_lookup hl, hl, hq, ht]

/-- After both mismatches the verdict is one noise byte (R128). -/
theorem decode_of_both_mismatch (hq : tryShape req b = .mismatch) (ht : tryShape rsp b = .mismatch) :
    decode b = .noiseByte .noiseStep := by
  obtain ⟨u, x, rest, rfl⟩ := header_of_getElem? h1 h3
  simp [decode, isException_eq_false_of_lookup hl, hl, hq, ht]

/-- A request of 8 bytes waits for 8 bytes (R92 to R102). -/
theorem decode_of_short_of_eight (hq : req.layout = .fixed 8) (h8 : b.length < 8) :
    decode b = .needMore .requestShape :=
  decode_of_request_insufficient h1 h3 hl (hq ▸ need_fixed_eq_none.mpr h8)

/-- A counted request waits for its count byte and then for the length the count says (R91, R126). -/
theorem decode_of_short_of_count {off : Nat} (hq : req.layout = .counted off (off + 1))
    (hs : b.length < off + 1 ∨ ∃ n : Byte, b[off]? = some n ∧ b.length < off + 3 + n.toNat) :
    decode b = .needMore .requestShape := by
  refine decode_of_request_insufficient h1 h3 hl (hq ▸ need_counted_eq_none.mpr fun m hm => ?_)
  have hoff : off < b.length := (List.getElem?_eq_some_iff.mp hm).1
  rcases hs with hlen | ⟨n, hn, hlen⟩
  · omega
  · obtain rfl : n = m := Option.some.inj (hn.symm.trans hm)
    omega

end CataloguedCode

/-! #### A fixed length and its checksum field -/

/-- A body with its checksum field behind it is its frame (R60). -/
theorem append_field_eq_frame {body rest : List Byte} {lo hi : Byte}
    (h : le16Bytes (checksum body body.length) = [lo, hi]) : body ++ lo :: hi :: rest = frame body ++ rest := by
  simp [frame, h]

/-- A shape of fixed length that is there mismatches when the checksum test fails. -/
theorem tryShape_fixed_mismatch {sh : Shape} {b : List Byte} {n : Nat} (hn : sh.layout = .fixed n) (hlen : n ≤ b.length)
    (hc : crcMatches b n = false) : tryShape sh b = .mismatch :=
  tryShape_mismatch_iff.mpr ⟨n, by simp [hn, need, hlen], hc⟩

/-- A body of a fixed length mismatches when the two bytes behind it are not its checksum field (R77, R78). -/
theorem tryShape_fixed_mismatch_of_body {sh : Shape} {b body rest : List Byte} {lo hi : Byte}
    (hn : sh.layout = .fixed (body.length + 2)) (hb : b = body ++ lo :: hi :: rest)
    (hne : le16Bytes (checksum body body.length) ≠ [lo, hi]) : tryShape sh b = .mismatch := by
  subst hb
  refine tryShape_fixed_mismatch hn (by simp) (Bool.eq_false_iff.mpr fun hc => hne ?_)
  obtain ⟨r, hr⟩ := crcMatches_body.mp hc
  obtain ⟨rfl, rfl, -⟩ : lo = lowByte _ ∧ hi = highByte _ ∧ rest = r := by simpa [le16Bytes] using hr
  rfl

/-! #### From the verdict to the next state -/

/-- At a frame verdict the step is the emission that the decoded instruction means (R157). -/
theorem step_of_decode_frame {s : State} {len : Nat} {i : Instr} {ev : DecodedFrame} (hd : decode s.buf = .frame len i)
    (he : exec i s = emitEvent len ev s) : step s = .next (afterFrame len ev s) := by
  obtain ⟨fc, sh, -, -, ht⟩ := decode_frame hd
  have hlen : len ≤ s.buf.length := need_le (tryShape_matched_iff.mp ht).1
  simp [step, hd, he, emitEvent_of_le hlen]

/-- At a noise verdict the step moves the front byte to the run (R156, R173). -/
theorem step_of_decode_noiseByte {s : State} {i : Instr} {u : Byte} {rest : List Byte}
    (hd : decode s.buf = .noiseByte i) (hb : s.buf = u :: rest) :
    step s = .next { s with buf := s.buf.drop 1, noise := s.noise.push u } := by
  have hn : exec i s = noiseByte s := by
    obtain ⟨rfl | ⟨v, f, rfl⟩, -⟩ := decode_noiseByte hd <;> rfl
  rw [step, hd]
  simp [hn, noiseByte_cons hb, hb]

/-- The instruction `i` is a well-formed frame of shape `sh` and `len` bytes, its wire bytes those of `body`, and it means the
emission of `ev`. -/
structure FrameRow (i : Instr) (sh : Shape) (len : Nat) (body : List Byte) (ev : DecodedFrame) : Prop where
  shape_eq : i.shape? = some sh
  wf : i.wf = true
  bodyOf_eq : bodyOf i = some body
  length_eq : body.length + 2 = len
  emits : ∀ s, exec i s = emitEvent len ev s

section WireBytes

variable {s : State} {fc : Byte} {req rsp sh : Shape} {i : Instr} {len : Nat} {body rest : List Byte} {ev : DecodedFrame}

/-- The wire bytes of a row match its shape, whatever follows them. -/
theorem tryShape_of_row (row : FrameRow i sh len body ev) (rest : List Byte) :
    tryShape sh (frame body ++ rest) = .matched len i := by
  rw [← row.length_eq]
  exact tryShape_frame row.shape_eq row.wf row.bodyOf_eq rest

/-- The wire bytes of a body hold the header, the code at offset 1. -/
theorem header_of_frame (hb : s.buf = frame body ++ rest) (h1 : body[1]? = some fc) :
    s.buf[1]? = some fc ∧ 3 ≤ s.buf.length := by
  have hlt : 1 < body.length := (List.getElem?_eq_some_iff.mp h1).1
  constructor
  · rw [hb, frame, List.append_assoc, List.getElem?_append_left hlt, h1]
  · simp only [hb, List.length_append, frame_length]
    omega

/-- At the wire bytes of a request row the step emits its event (R126). -/
theorem step_of_request_row (row : FrameRow i req len body ev) (hl : lookup fc = some (req, rsp)) (h1 : body[1]? = some fc)
    (hb : s.buf = frame body ++ rest) : step s = .next (afterFrame len ev s) := by
  obtain ⟨hfc, h3⟩ := header_of_frame hb h1
  have ht : tryShape req s.buf = .matched len i := hb ▸ tryShape_of_row row rest
  exact step_of_decode_frame (decode_of_request_matched hfc h3 hl ht) (row.emits s)

/-- At the wire bytes of a response row the step emits its event, the request shape having mismatched (R127). -/
theorem step_of_response_row (row : FrameRow i rsp len body ev) (hl : lookup fc = some (req, rsp)) (h1 : body[1]? = some fc)
    (hb : s.buf = frame body ++ rest) (hq : tryShape req s.buf = .mismatch) :
    step s = .next (afterFrame len ev s) := by
  obtain ⟨hfc, h3⟩ := header_of_frame hb h1
  have ht : tryShape rsp s.buf = .matched len i := hb ▸ tryShape_of_row row rest
  exact step_of_decode_frame (decode_of_response_matched hfc h3 hl hq ht) (row.emits s)

end WireBytes

/-! #### The rows of the catalog -/

/-- The request rows of codes 1 to 4 (R92, R94, R96, R98). -/
theorem readRequest_row {fc : Byte} (hfc : fc ∈ ([1, 2, 3, 4] : List Byte)) (u : Byte) (x y : U16) :
    ∃ req rsp i, lookup fc = some (req, rsp) ∧ req.layout = .fixed 8 ∧
      FrameRow i req 8 (bodyTwo u fc x y) (.request u fc (.addrQty x y)) := by
  simp only [List.mem_cons, List.not_mem_nil, or_false] at hfc
  rcases hfc with rfl | rfl | rfl | rfl
  · exact ⟨_, _, .fc01Req u x y, rfl, rfl, rfl, rfl, rfl, rfl, fun _ => rfl⟩
  · exact ⟨_, _, .fc02Req u x y, rfl, rfl, rfl, rfl, rfl, rfl, fun _ => rfl⟩
  · exact ⟨_, _, .fc03Req u x y, rfl, rfl, rfl, rfl, rfl, rfl, fun _ => rfl⟩
  · exact ⟨_, _, .fc04Req u x y, rfl, rfl, rfl, rfl, rfl, rfl, fun _ => rfl⟩

/-- The response rows of codes 1 to 4, each tried after a request of 8 bytes (R93, R95, R97, R99). -/
theorem readResponse_row {fc c : Byte} {d : List Byte} (hfc : fc ∈ ([1, 2, 3, 4] : List Byte)) (u : Byte)
    (hd : d.length = c.toNat) :
    ∃ req rsp i, lookup fc = some (req, rsp) ∧ req.layout = .fixed 8 ∧
      FrameRow i rsp (5 + c.toNat) (bodyV3 u fc c d) (.response u fc (.payload c d)) := by
  have hlen : (bodyV3 u fc c d).length + 2 = 5 + c.toNat := by simp [bodyV3]; omega
  have hw : (d.length == c.toNat) = true := beq_iff_eq.mpr hd
  simp only [List.mem_cons, List.not_mem_nil, or_false] at hfc
  rcases hfc with rfl | rfl | rfl | rfl
  · exact ⟨_, _, .fc01Rsp u c d, rfl, rfl, rfl, hw, rfl, hlen, fun _ => rfl⟩
  · exact ⟨_, _, .fc02Rsp u c d, rfl, rfl, rfl, hw, rfl, hlen, fun _ => rfl⟩
  · exact ⟨_, _, .fc03Rsp u c d, rfl, rfl, rfl, hw, rfl, hlen, fun _ => rfl⟩
  · exact ⟨_, _, .fc04Rsp u c d, rfl, rfl, rfl, hw, rfl, hlen, fun _ => rfl⟩

/-- The request row of code 5 (R100). -/
theorem fc05Req_row (u : Byte) (x y : U16) :
    FrameRow (.fc05Req u x y) .fc05Req 8 (bodyTwo u 0x05 x y) (.request u 0x05 (.addrData x y)) :=
  ⟨rfl, rfl, rfl, rfl, fun _ => rfl⟩

/-- The response row of code 5: 6 bytes, no data echo (R101). -/
theorem fc05Rsp_row (u : Byte) (x : U16) :
    FrameRow (.fc05Rsp u x) .fc05Rsp 6 (u :: 0x05 :: be16Bytes x) (.response u 0x05 (.addrOnly x)) :=
  ⟨rfl, rfl, rfl, rfl, fun _ => rfl⟩

/-- The length of a frame of format V7 (R51). -/
theorem bodyV7_frame_length {c : Byte} {d : List Byte} (hd : d.length = c.toNat) (u fc : Byte) (x y : U16) :
    (bodyV7 u fc x y c d).length + 2 = 9 + c.toNat := by
  simp [bodyV7]
  omega

/-- The length of a frame of format V11 (R51). -/
theorem bodyV11_frame_length {c : Byte} {d : List Byte} (hd : d.length = c.toNat) (u fc : Byte) (x y z w : U16) :
    (bodyV11 u fc x y z w c d).length + 2 = 13 + c.toNat := by
  simp [bodyV11]
  omega

/-- The request row of code 15 (R104). -/
theorem fc15Req_row {c : Byte} {d : List Byte} (hd : d.length = c.toNat) (u : Byte) (x y : U16) :
    FrameRow (.fc15Req u x y c d) .fc15Req (9 + c.toNat) (bodyV7 u 0x0F x y c d)
      (.request u 0x0F (.addrQtyPayload x y c d)) :=
  ⟨rfl, beq_iff_eq.mpr hd, rfl, bodyV7_frame_length hd u 0x0F x y, fun _ => rfl⟩

/-- The request row of code 16 (R106). -/
theorem fc16Req_row {c : Byte} {d : List Byte} (hd : d.length = c.toNat) (u : Byte) (x y : U16) :
    FrameRow (.fc16Req u x y c d) .fc16Req (9 + c.toNat) (bodyV7 u 0x10 x y c d)
      (.request u 0x10 (.addrQtyPayload x y c d)) :=
  ⟨rfl, beq_iff_eq.mpr hd, rfl, bodyV7_frame_length hd u 0x10 x y, fun _ => rfl⟩

/-- The request row of code 23 (R108). -/
theorem fc23Req_row {c : Byte} {d : List Byte} (hd : d.length = c.toNat) (u : Byte) (x y z w : U16) :
    FrameRow (.fc23Req u x y z w c d) .fc23Req (13 + c.toNat) (bodyV11 u 0x17 x y z w c d)
      (.request u 0x17 (.readWrite x y z w c d)) :=
  ⟨rfl, beq_iff_eq.mpr hd, rfl, bodyV11_frame_length hd u 0x17 x y z w, fun _ => rfl⟩

/-- A packed field is its two wire bytes, high byte first (R34). -/
@[simp] theorem be16Bytes_pack (h l : Byte) : be16Bytes (pack h l) = [h, l] := by
  simp [be16Bytes]

/-- A body of two 16-bit fields is its six bytes, the fields packed high byte first (R34). -/
theorem bodyTwo_pack (u fc a1 a0 b1 b0 : Byte) :
    bodyTwo u fc (pack a1 a0) (pack b1 b0) = [u, fc, a1, a0, b1, b0] := by
  simp [bodyTwo]

/-! #### The obligations -/

/-- Settles O26: the eight bytes are the wire bytes of the request row; fewer do not resolve its length. -/
theorem readRequestsOnTheWire : Obligations.ReadRequestsOnTheWire := by
  intro s u fc a1 a0 q1 q0 lo hi rest hfc
  obtain ⟨req, rsp, i, hl, hq, row⟩ := readRequest_row hfc u (pack a1 a0) (pack q1 q0)
  refine ⟨fun hb hlo hhi => ?_, fun h1 h3 h8 => decode_of_short_of_eight h1 h3 hl hq h8⟩
  refine step_of_request_row row hl rfl (rest := rest) ?_
  rw [hb, bodyTwo_pack, hlo, hhi]
  exact append_field_eq_frame (body := [u, fc, a1, a0, q1, q0]) rfl

/-- Settles O27: the request row when the checksum of six bytes fits, else the response row when that of four bytes fits, else
both shapes mismatch. -/
theorem singleCoilWriteOnTheWire : Obligations.SingleCoilWriteOnTheWire := by
  intro s u a1 a0 d1 d0 lo hi rest
  have hl : lookup 0x05 = some (.fc05Req, .fc05Rsp) := rfl
  refine ⟨fun hb => ?_, fun h1 h3 h8 => decode_of_short_of_eight h1 h3 hl rfl h8⟩
  have hmismatch (hreq : le16Bytes (checksum [u, 0x05, a1, a0, d1, d0] 6) ≠ [lo, hi]) :
      tryShape .fc05Req s.buf = .mismatch :=
    tryShape_fixed_mismatch_of_body (body := [u, 0x05, a1, a0, d1, d0]) rfl hb hreq
  refine ⟨fun hreq => ?_, fun hreq hrsp => ?_, fun hreq hrsp => ?_⟩
  · refine step_of_request_row (fc05Req_row u (pack a1 a0) (pack d1 d0)) hl rfl (rest := rest) ?_
    rw [hb, bodyTwo_pack]
    exact append_field_eq_frame (body := [u, 0x05, a1, a0, d1, d0]) hreq
  · refine step_of_response_row (fc05Rsp_row u (pack a1 a0)) hl rfl (rest := lo :: hi :: rest) ?_ (hmismatch hreq)
    rw [hb, be16Bytes_pack]
    exact append_field_eq_frame (body := [u, 0x05, a1, a0]) hrsp
  · have hresp : tryShape .fc05Rsp s.buf = .mismatch :=
      tryShape_fixed_mismatch_of_body (body := [u, 0x05, a1, a0]) rfl hb hrsp
    exact step_of_decode_noiseByte
      (decode_of_both_mismatch (by simp [hb]) (by simp [hb]) hl (hmismatch hreq) hresp) hb

/-- Settles O29: each request row at its wire bytes, and the two waits of a counted layout. -/
theorem variableRequestsOnTheWire : Obligations.VariableRequestsOnTheWire := by
  intro s u c x y z w d rest hd
  refine ⟨step_of_request_row (fc15Req_row hd u x y) (fc := 0x0F) rfl rfl,
    step_of_request_row (fc16Req_row hd u x y) (fc := 0x10) rfl rfl,
    step_of_request_row (fc23Req_row hd u x y z w) (fc := 0x17) rfl rfl, fun fc hfc h1 h3 => ?_,
    fun h1 h3 => decode_of_short_of_count (off := 10) h1 h3 rfl rfl⟩
  simp only [List.mem_cons, List.not_mem_nil, or_false] at hfc
  rcases hfc with rfl | rfl <;> exact decode_of_short_of_count (off := 6) h1 h3 rfl rfl

/-- Settles O30: the response row at its wire bytes, the request shape of 8 bytes having mismatched. -/
theorem readResponsesOnTheWire : Obligations.ReadResponsesOnTheWire := by
  intro s u fc c d rest hfc hd hb h8 hc
  obtain ⟨req, rsp, i, hl, hq, row⟩ := readResponse_row hfc u hd
  exact step_of_response_row row hl rfl hb (tryShape_fixed_mismatch hq h8 hc)

end Sys2Proof.Machine

/-! ### The reassembler: what STEP does at each verdict, its branches, DRAIN and INGEST -/

namespace Sys2Proof.Machine

/-! #### The event of a matched shape (R151 to R154, R160) -/

section Matched

variable {b rest : List Byte} {u fc : Byte} {sh : Shape} {len : Nat} {i : Instr}

/-- A shape whose length is there and whose checksum fits matches some instruction (R111). -/
theorem tryShape_matched_of_need (hn : need sh.layout b = some len) (hc : crcMatches b len = true) :
    ∃ i, tryShape sh b = .matched len i := by
  obtain ⟨i, hi⟩ := buildFrame_of_need hn
  exact ⟨i, tryShape_matched_iff.mpr ⟨hn, hc, hi⟩⟩

/-- The instruction of a match emits one well-formed event, the same from every state, whose wire bytes are the bytes matched; it is
a Request for a request shape, a Response for a response shape. -/
theorem event_of_matched (h1 : b[1]? = some fc) (hf : sh.selectedBy fc = true) (ht : tryShape sh b = .matched len i) :
    ∃ ev : DecodedFrame, (∀ s, exec i s = emitEvent len ev s) ∧ ev.wf = true ∧
      Event.wireBytes (.frame ev) = b.take len ∧
      (sh.requestOf = none → sh ≠ .exc → ∃ v f fields, ev = .request v f fields) ∧
      (sh.requestOf ≠ none → ∃ v f fields, ev = .response v f fields) := by
  obtain ⟨hs, hw, body, r, hbody, hb, rfl⟩ := tryShape_matched h1 hf ht
  obtain ⟨ev, hev, hbd, hwf, hreq, hrsp⟩ := exec_frame hs hw hbody
  have hbytes : Event.wireBytes (.frame ev) = b.take (body.length + 2) := by
    rw [Event.wireBytes, hbd, hb, ← frame_length, List.take_left]
  exact ⟨ev, hev, hwf, hbytes, hreq, hrsp⟩

/-- Wire bytes that begin with a body's two header bytes are matched by bytes with that header. -/
theorem header_of_frame_eq_take {v f : Byte} {tail : List Byte} (h5 : 5 ≤ len)
    (h : frame (v :: f :: tail) = (u :: fc :: rest).take len) : v = u ∧ f = fc := by
  obtain ⟨n, rfl⟩ : ∃ n, len = n + 2 := ⟨len - 2, by omega⟩
  obtain ⟨hv, hf, -⟩ : v = u ∧ f = fc ∧ _ = rest.take n := by simpa [frame] using h
  exact ⟨hv, hf⟩

/-- A matched request shape means the emission of a Request with the unit and code at the front (R126, R152). -/
theorem request_of_matched (hb : b = u :: fc :: rest) (hf : sh.selectedBy fc = true) (hq : sh.requestOf = none)
    (hx : sh ≠ .exc) (ht : tryShape sh b = .matched len i) :
    ∃ fields, DecodedFrame.wf (.request u fc fields) = true ∧
      Event.wireBytes (.frame (.request u fc fields)) = b.take len ∧
      ∀ s, exec i s = emitEvent len (.request u fc fields) s := by
  obtain ⟨ev, he, hwf, hbytes, hreq, -⟩ := event_of_matched (by simp [hb]) hf ht
  obtain ⟨v, f, fields, rfl⟩ := hreq hq hx
  have h5 := (need_bounds (tryShape_matched_iff.mp ht).1).1
  obtain ⟨rfl, rfl⟩ := header_of_frame_eq_take h5 (hb ▸ hbytes)
  exact ⟨fields, hwf, hbytes, he⟩

/-- A matched response shape means the emission of a Response with the unit and code at the front (R127, R153). -/
theorem response_of_matched (hb : b = u :: fc :: rest) (hf : sh.selectedBy fc = true) (hq : sh.requestOf ≠ none)
    (ht : tryShape sh b = .matched len i) :
    ∃ fields, DecodedFrame.wf (.response u fc fields) = true ∧
      Event.wireBytes (.frame (.response u fc fields)) = b.take len ∧
      ∀ s, exec i s = emitEvent len (.response u fc fields) s := by
  obtain ⟨ev, he, hwf, hbytes, -, hrsp⟩ := event_of_matched (by simp [hb]) hf ht
  obtain ⟨v, f, fields, rfl⟩ := hrsp hq
  have h5 := (need_bounds (tryShape_matched_iff.mp ht).1).1
  obtain ⟨rfl, rfl⟩ := header_of_frame_eq_take h5 (hb ▸ hbytes)
  exact ⟨fields, hwf, hbytes, he⟩

/-- At a frame verdict the decoded instruction emits one event, the same from every state. -/
theorem emitEvent_of_decode_frame (hd : decode b = .frame len i) :
    ∃ ev, ∀ s, exec i s = emitEvent len ev s := by
  obtain ⟨fc, sh, h1, hf, ht⟩ := decode_frame hd
  obtain ⟨ev, he, -⟩ := event_of_matched h1 hf ht
  exact ⟨ev, he⟩

end Matched

/-! #### One pass and one STEP at each verdict (R122, R130) -/

section Verdicts

variable {s t : State} {len : Nat} {i : Instr} {v : Verdict}

/-- A pass at a NEED_MORE verdict does nothing (R130). -/
theorem pass_of_decode_needMore {w : Wait} (hd : decode s.buf = .needMore w) : pass s = .next (.needMore, s) := by
  simp [pass, hd]

/-- A pass at a frame verdict is the emission of the decoded instruction's event (R157). -/
theorem pass_of_decode_frame {ev : DecodedFrame} (hd : decode s.buf = .frame len i)
    (he : exec i s = emitEvent len ev s) : pass s = .next (.frame, afterFrame len ev s) := by
  rcases pass_cases s with ⟨w, hw, -⟩ | ⟨j, c, tail, hn, -⟩ | ⟨n, j, ev', r, hf, -, -, -, -, hx, hp⟩
  · simp [hd] at hw
  · simp [hd] at hn
  · obtain ⟨rfl, rfl⟩ : len = n ∧ i = j := by simpa [hd] using hf
    obtain ⟨-, hev⟩ := emitEvent_eq_next.mp (he.symm.trans hx)
    rw [hp, hev]

/-- STEP at a NEED_MORE verdict returns it and changes nothing else. -/
theorem exec_step_of_needMore {w : Wait} (hd : decode s.buf = .needMore w) :
    exec .step s = .next { s with ret := some (.verdict .needMore) } :=
  exec_step_of_pass (pass_of_decode_needMore hd)

/-- STEP at a noise verdict moves the front byte to the run. -/
theorem exec_step_of_noiseByte {u : Byte} {rest : List Byte} (hd : decode s.buf = .noiseByte i) (hb : s.buf = u :: rest) :
    exec .step s = .next { s with buf := rest, noise := s.noise.push u, ret := some (.verdict .noiseByte) } :=
  exec_step_of_pass (pass_of_decode_noiseByte hd hb)

/-- STEP at a frame verdict emits the decoded instruction's event. -/
theorem exec_step_of_frame {ev : DecodedFrame} (hd : decode s.buf = .frame len i) (he : exec i s = emitEvent len ev s) :
    exec .step s = .next { afterFrame len ev s with ret := some (.verdict .frame) } :=
  exec_step_of_pass (pass_of_decode_frame hd he)

/-- A pass writes neither the scratch nor the returned value nor the calls (R17; log entries 1 and 2). -/
theorem pass_keeps (h : pass s = .next (v, t)) : t.crc = s.crc ∧ t.ret = s.ret ∧ t.calls = s.calls := by
  rcases pass_cases s with ⟨w, -, hp⟩ | ⟨i, b, rest, -, -, -, -, hp⟩ | ⟨len, i, ev, r, -, -, -, -, -, -, hp⟩ <;>
  · obtain ⟨-, rfl⟩ : _ = v ∧ _ = t := by simpa [hp] using h
    exact ⟨rfl, rfl, rfl⟩

end Verdicts

/-- Settles O25: every state has a pass, and each verdict's pass is the decoded instruction's effect. -/
theorem stepConsumesByVerdict : Obligations.StepConsumesByVerdict := by
  intro s
  rcases pass_cases s with ⟨w, hd, hp⟩ | ⟨i, b, rest, hd, hb, -, he, hp⟩ | ⟨len, i, ev, r, hd, h5, hb, hlen, -, he, hp⟩
  · refine ⟨_, exec_step_of_pass hp, rfl, rfl, fun w' hw => rfl, ?_, ?_⟩ <;> simp [hd]
  · refine ⟨_, exec_step_of_pass hp, rfl, rfl, ?_, fun j hj => ?_, ?_⟩
    · simp [hd]
    · obtain rfl : i = j := by simpa [hd] using hj
      exact ⟨rfl, by simp [hb], rfl, he⟩
    · simp [hd]
  · refine ⟨_, exec_step_of_pass hp, rfl, rfl, ?_, ?_, fun n j hj => ?_⟩
    · simp [hd]
    · simp [hd]
    · obtain ⟨rfl, rfl⟩ : len = n ∧ i = j := by simpa [hd] using hj
      exact ⟨rfl, rfl, rfl, by simp [hb, hlen], h5, he⟩

/-! #### The branches of STEP (R123 to R128) -/

/-- Without the three bytes of the header the verdict is to wait (R123). -/
theorem decode_of_short {b : List Byte} (h : b.length < 3) : decode b = .needMore .header := by
  match b with
  | [] | [_] | [_, _] => rfl
  | _ :: _ :: _ :: _ => simp only [List.length_cons] at h; omega

/-- Settles O20: fewer than three bytes are a wait. -/
theorem headerCheckWaits : Obligations.HeaderCheckWaits :=
  fun _ h => exec_step_of_needMore (decode_of_short h)

section ExceptionCode

variable {rest : List Byte} {u fc code lo hi : Byte}

/-- The checksum field is two given bytes exactly when they are its low and its high byte (R33). -/
theorem le16Bytes_eq_iff {c : U16} : le16Bytes c = [lo, hi] ↔ lo = lowByte c ∧ hi = highByte c := by
  simp [le16Bytes, eq_comm]

/-- The exception test reads bit 7 alone (R55). -/
theorem isException_eq_true_iff : isException fc = true ↔ fc &&& 0x80 ≠ 0 := by
  simp [isException, excBit]

/-- With bit 7 set and fewer than five bytes the verdict is to wait (R123, R124). -/
theorem decode_exception_short (he : isException fc = true) (h : rest.length < 3) :
    ∃ w, decode (u :: fc :: rest) = .needMore w := by
  cases rest with
  | nil => exact ⟨.header, rfl⟩
  | cons x tail =>
    have ht : tryShape .exc (u :: fc :: x :: tail) = .insufficient :=
      tryShape_insufficient_iff.mpr (need_fixed_eq_none.mpr (by simp [excLen] at h ⊢; omega))
    exact ⟨.exceptionShape, by simp [decode, he, ht]⟩

/-- With bit 7 set and the checksum of the first three bytes behind them, the verdict is the exception frame (R110). -/
theorem decode_exception_matched (he : isException fc = true) (hc : le16Bytes (checksum [u, fc, code] 3) = [lo, hi]) :
    decode (u :: fc :: code :: lo :: hi :: rest) = .frame 5 (.exc u fc code) := by
  have ht : tryShape .exc (u :: fc :: code :: lo :: hi :: rest) = .matched 5 (.exc u fc code) := by
    have hframe := append_field_eq_frame (body := [u, fc, code]) (rest := rest) hc
    have hmatch := tryShape_frame (i := .exc u fc code) rfl he rfl rest
    rwa [← hframe] at hmatch
  simp [decode, he, ht]

/-- With bit 7 set and two other bytes behind the first three, the verdict is one noise byte (R124). -/
theorem decode_exception_mismatch (he : isException fc = true) (hc : le16Bytes (checksum [u, fc, code] 3) ≠ [lo, hi]) :
    decode (u :: fc :: code :: lo :: hi :: rest) = .noiseByte .noiseStep := by
  have ht : tryShape .exc (u :: fc :: code :: lo :: hi :: rest) = .mismatch :=
    tryShape_fixed_mismatch_of_body (body := [u, fc, code]) rfl rfl hc
  simp [decode, he, ht]

end ExceptionCode

/-- Settles O21: with bit 7 set the exception shape waits, matches or mismatches, and STEP follows that verdict. -/
theorem exceptionBranchOfStep : Obligations.ExceptionBranchOfStep := by
  intro s u fc rest hb hbit
  have he : isException fc = true := isException_eq_true_iff.mpr hbit
  refine ⟨fun hshort => ?_, ?_⟩
  · obtain ⟨w, hd⟩ := decode_exception_short (u := u) he hshort
    exact exec_step_of_needMore (hb ▸ hd)
  · rintro code lo hi r rfl
    refine ⟨fun hfit => ?_, fun hfit => ?_⟩
    · have hd := decode_exception_matched (rest := r) he (le16Bytes_eq_iff.mpr hfit)
      exact exec_step_of_frame (hb ▸ hd) rfl
    · have hd := decode_exception_mismatch (rest := r) he (mt le16Bytes_eq_iff.mp hfit)
      exact exec_step_of_noiseByte (hb ▸ hd) hb

/-- Settles O23: the request shape's wait is the verdict, and so is its match, whose event is a Request. -/
theorem requestAttemptOfStep : Obligations.RequestAttemptOfStep := by
  intro s u fc rest req rsp hb h3 hl
  have h1 : s.buf[1]? = some fc := by simp [hb]
  obtain ⟨hsel, -, -, hq⟩ := lookup_selects hl
  have hx : req ≠ .exc := by
    rintro rfl
    exact Bool.false_ne_true ((isException_eq_false_of_lookup hl).symm.trans hsel)
  refine ⟨fun hn => exec_step_of_needMore (decode_of_request_insufficient h1 h3 hl hn), fun len hn hc => ?_⟩
  obtain ⟨i, ht⟩ := tryShape_matched_of_need hn hc
  obtain ⟨fields, hwf, hbytes, he⟩ := request_of_matched hb hsel hq hx ht
  exact ⟨fields, hwf, hbytes, exec_step_of_frame (decode_of_request_matched h1 h3 hl ht) (he s)⟩

/-- After a request mismatch, while the response shape's length is not there the verdict is to wait (R127). -/
theorem decode_of_response_insufficient {b : List Byte} {fc : Byte} {req rsp : Shape} (h1 : b[1]? = some fc)
    (h3 : 3 ≤ b.length) (hl : lookup fc = some (req, rsp)) (hq : tryShape req b = .mismatch)
    (hn : need rsp.layout b = none) : decode b = .needMore .responseShape := by
  have ht := tryShape_insufficient_iff.mpr hn
  obtain ⟨u, x, rest, rfl⟩ := header_of_getElem? h1 h3
  simp [decode, isException_eq_false_of_lookup hl, hl, hq, ht]

/-- Settles O24: after the request's mismatch the response shape's wait, match or mismatch is the verdict. -/
theorem responseAttemptOfStep : Obligations.ResponseAttemptOfStep := by
  intro s u fc rest req rsp reqLen hb h3 hl hreq hreqc
  have h1 : s.buf[1]? = some fc := by simp [hb]
  have hmis : tryShape req s.buf = .mismatch := tryShape_mismatch_iff.mpr ⟨reqLen, hreq, hreqc⟩
  obtain ⟨-, hsel, hq, -⟩ := lookup_selects hl
  refine ⟨fun hn => exec_step_of_needMore (decode_of_response_insufficient h1 h3 hl hmis hn), fun len hn hc => ?_,
    fun len hn hc => ?_⟩
  · obtain ⟨i, ht⟩ := tryShape_matched_of_need hn hc
    obtain ⟨fields, hwf, hbytes, he⟩ := response_of_matched hb hsel (by simp [hq]) ht
    exact ⟨fields, hwf, hbytes, exec_step_of_frame (decode_of_response_matched h1 h3 hl hmis ht) (he s)⟩
  · have hd := decode_of_both_mismatch h1 h3 hl hmis (tryShape_mismatch_iff.mpr ⟨len, hn, hc⟩)
    exact exec_step_of_noiseByte hd hb

/-! #### DRAIN and INGEST (R120, R121, R131) -/

/-- STEP answers the state of its one pass, with the pass's verdict returned (R122). -/
theorem exec_step_eq_next {s t : State} :
    exec .step s = .next t ↔ ∃ v p, pass s = .next (v, p) ∧ t = { p with ret := some (.verdict v) } := by
  simp only [exec, execStep, andThen_eq_next, Prod.exists, Host.Outcome.next.injEq, answer, eq_comm (b := t)]

/-- A pass that returns NEED_MORE ends the loop (R121). -/
theorem drainAll_of_pass_needMore {s t : State} (h : pass s = .next (.needMore, t)) : drainAll s = .next t := by
  simp [drainAll_eq s, h]

/-- A pass with another verdict leaves the rest of the loop to do (R121). -/
theorem drainAll_of_pass {s t : State} {v : Verdict} (h : pass s = .next (v, t)) (hv : v ≠ .needMore) :
    drainAll s = drainAll t := by
  rw [drainAll_eq s, h]
  cases v with
  | needMore => exact absurd rfl hv
  | noiseByte => rfl
  | frame => rfl

/-- Settles O34: the loop's equation for the pass that STEP ran, which left the returned value alone. -/
theorem drainRepeatsStep : Obligations.DrainRepeatsStep := by
  intro s t v hstep hret
  obtain ⟨v', p, hp, rfl⟩ := exec_step_eq_next.mp hstep
  obtain rfl : v' = v := by simpa using hret
  obtain ⟨-, hkeep, -⟩ := pass_keeps hp
  have hback : { p with ret := s.ret } = p := by rw [← hkeep]
  simp only [hback]
  exact ⟨fun hv => drainAll_of_pass_needMore (hv ▸ hp), fun hv => drainAll_of_pass hp hv⟩

/-- The loop completes from every state, ends where a step waits, and writes neither the scratch nor the returned value nor the
calls (R131). -/
theorem drainAll_ends_waiting (s : State) :
    ∃ t, drainAll s = .next t ∧ awaitingBytes t = true ∧ t.crc = s.crc ∧ t.ret = s.ret ∧ t.calls = s.calls := by
  induction s using drain_induction with
  | wait s w hw => exact ⟨s, drainAll_wait hw, by simp [awaitingBytes, hw, Front.waits], rfl, rfl, rfl⟩
  | noise s b rest hb hp he ih => rw [he]; exact ih
  | frame s len ev r hb hl hp he ih => rw [he]; exact ih

/-- Settles O36: INGEST is the loop from the state with the chunk appended, and the loop ends waiting. -/
theorem ingestAppendsThenDrains : Obligations.IngestAppendsThenDrains := by
  intro s chunk
  obtain ⟨t, ht, hkeeps⟩ := drainAll_ends_waiting (bufAppend chunk s)
  exact ⟨t, ht, ht, hkeeps⟩

/-! #### The loop forgets history (R137): two runs from the same `BUF` and `NOISE` -/

/-- Two runs, `s` to `t` and `s'` to `t'`, end with the same `BUF` and `NOISE` and append the same events to each `OUT`. -/
def SameEffect (s s' t t' : State) : Prop :=
  t.buf = t'.buf ∧ t.noise = t'.noise ∧ ∃ evs, t.out = s.out ++ evs ∧ t'.out = s'.out ++ evs

/-- Runs of the same effect, one after the other, have the same effect. -/
theorem SameEffect.trans {s s' m m' t t' : State} (h : SameEffect s s' m m') (h' : SameEffect m m' t t') :
    SameEffect s s' t t' := by
  obtain ⟨-, -, evs, hm, hm'⟩ := h
  obtain ⟨hb, hn, evs', ht, ht'⟩ := h'
  exact ⟨hb, hn, evs ++ evs', by simp [ht, hm], by simp [ht', hm']⟩

/-- Two passes from the same `BUF` and `NOISE` have the same verdict and the same effect: the verdict is of the bytes, and the event
is of the decoded instruction. -/
theorem pass_sameEffect {s s' : State} (hb : s.buf = s'.buf) (hn : s.noise = s'.noise) :
    ∃ v t t', pass s = .next (v, t) ∧ pass s' = .next (v, t') ∧ SameEffect s s' t t' := by
  cases hd : decode s.buf with
  | needMore w =>
    exact ⟨_, _, _, pass_of_decode_needMore hd, pass_of_decode_needMore (hb ▸ hd), hb, hn, [], by simp, by simp⟩
  | noiseByte i =>
    obtain ⟨-, h3⟩ := decode_noiseByte hd
    obtain ⟨b, rest, hcons⟩ := List.exists_cons_of_length_pos (show 0 < s.buf.length by omega)
    exact ⟨_, _, _, pass_of_decode_noiseByte hd hcons, pass_of_decode_noiseByte (hb ▸ hd) (hb ▸ hcons),
      rfl, by simp [hn], [], by simp, by simp⟩
  | frame len i =>
    obtain ⟨ev, he⟩ := emitEvent_of_decode_frame hd
    exact ⟨_, _, _, pass_of_decode_frame hd (he s), pass_of_decode_frame (hb ▸ hd) (he s'),
      by simp [hb], rfl, s.noise.closing ++ [.frame ev], by simp, by simp [hn]⟩

/-- A first pass that is not the last carries the same effect of the runs behind it back over itself. -/
theorem sameEffect_of_pass {s s' m t t' : State} {v : Verdict} (hb : s.buf = s'.buf) (hn : s.noise = s'.noise)
    (hp : pass s = .next (v, m)) (hv : v ≠ .needMore) (ht' : drainAll s' = .next t')
    (ih : ∀ m', m.buf = m'.buf → m.noise = m'.noise → drainAll m' = .next t' → SameEffect m m' t t') :
    SameEffect s s' t t' := by
  obtain ⟨w, p, m', hp₁, hp', heffect⟩ := pass_sameEffect hb hn
  obtain ⟨rfl, rfl⟩ : v = w ∧ m = p := by simpa [hp] using hp₁
  have ⟨hb', hn', _⟩ := heffect
  exact heffect.trans (ih m' hb' hn' ((drainAll_of_pass hp' hv).symm.trans ht'))

/-- The loop's runs from the same `BUF` and `NOISE` have the same effect. -/
theorem drainAll_sameEffect {t' : State} (s : State) : ∀ s' t, s.buf = s'.buf → s.noise = s'.noise →
    drainAll s = .next t → drainAll s' = .next t' → SameEffect s s' t t' := by
  induction s using drain_induction with
  | wait s w hw =>
    intro s' t hb hn ht ht'
    obtain rfl : s = t := by simpa [drainAll_wait hw] using ht
    obtain rfl : s' = t' := by simpa [drainAll_wait (hb ▸ hw)] using ht'
    exact ⟨hb, hn, [], by simp, by simp⟩
  | noise s b rest _ hp he ih =>
    intro s' t hb hn ht ht'
    exact sameEffect_of_pass hb hn hp (by decide) ht' fun m' hb' hn' hm' => ih m' t hb' hn' (he ▸ ht) hm'
  | frame s len ev r _ _ hp he ih =>
    intro s' t hb hn ht ht'
    exact sameEffect_of_pass hb hn hp (by decide) ht' fun m' hb' hn' hm' => ih m' t hb' hn' (he ▸ ht) hm'

/-- Settles O46: with the chunk appended the two buffers are still the same, and the loop has the same effect from both. -/
theorem classificationForgetsHistory : Obligations.ClassificationForgetsHistory := by
  intro s s' chunk t t' hb hn ht ht'
  have hbuf : (bufAppend chunk s).buf = (bufAppend chunk s').buf := by simp [hb]
  exact drainAll_sameEffect (bufAppend chunk s) (bufAppend chunk s') t hbuf hn ht ht'

end Sys2Proof.Machine

/-! ### The noise synchronizer's two operations -/

namespace Sys2Proof.Machine

/-- EMIT_FRAME as an instruction is the emission of R157. -/
@[simp] theorem exec_emitFrame (len : Nat) (ev : DecodedFrame) (s : State) :
    exec (.emitFrame len ev) s = emitEvent len ev s := rfl

/-- With no run open, a frame leaves its own event alone (R157). -/
theorem afterFrame_of_closed {s : State} (h : s.noise = .closed) (len : Nat) (ev : DecodedFrame) :
    afterFrame len ev s = { s with buf := s.buf.drop len, out := s.out ++ [.frame ev] } := by
  apply State.eq_of_fields <;> simp [h, Noise.closing]

/-- With a run open, a frame leaves the run's event directly before its own, and the run closed (R157). -/
theorem afterFrame_of_opened {s : State} {q : List Byte} (h : s.noise = .opened q) (len : Nat) (ev : DecodedFrame) :
    afterFrame len ev s =
      { s with buf := s.buf.drop len, noise := .closed, out := s.out ++ [.noiseRun q, .frame ev] } := by
  apply State.eq_of_fields <;> simp [h, Noise.closing]

/-- Settles O16: the bytes are there, so the next state is `afterFrame`, read off for a closed and for an open run. -/
theorem emitFrameClosesTheRunFirst : Obligations.EmitFrameClosesTheRunFirst := by
  intro s len ev hlen
  rw [exec_emitFrame, emitEvent_of_le hlen]
  constructor
  · intro hn
    rw [afterFrame_of_closed hn]
  · intro q hn
    rw [afterFrame_of_opened hn]

/-- NOISE_STEP as an instruction is one noise step (R156). -/
@[simp] theorem exec_noiseStep (s : State) : exec .noiseStep s = noiseByte s := rfl

/-- UNKNOWN_FC is one noise step, whatever its two bytes are (R56, R125). -/
@[simp] theorem exec_unknownFc (u fc : Byte) (s : State) : exec (.unknownFc u fc) s = noiseByte s := rfl

/-- Settles O17: both instructions are the noise step, which pushes the front byte on a closed or on an open run. -/
theorem noiseStepMovesOneByte : Obligations.NoiseStepMovesOneByte := by
  intro s b u fc rest i hb hi
  have hexec : exec i s = .next { s with buf := rest, noise := s.noise.push b } := by
    rcases hi with rfl | rfl
    · rw [exec_noiseStep, noiseByte_cons hb]
    · rw [exec_unknownFc, noiseByte_cons hb]
  constructor
  · intro hn
    rw [hexec, hn, Noise.push]
  · intro q hn
    rw [hexec, hn, Noise.push]

end Sys2Proof.Machine

/-! ### What a step can do to the output, the run and the buffer: byte accounting and the run invariant -/

namespace Sys2Proof.Machine

/-! #### One step (R191, R211) and one call -/

/-- Where the front decodes to an instruction, the step runs it (log entry 6). -/
theorem step_runs_front {s : State} {i : Instr} (h : (decode s.buf).instr? = some i) : step s = exec i s := by
  cases hd : decode s.buf with
  | needMore w => simp [hd, Front.instr?] at h
  | noiseByte j =>
    obtain rfl : j = i := by simpa [hd, Front.instr?] using h
    simp only [step, hd]
  | frame len j =>
    obtain rfl : j = i := by simpa [hd, Front.instr?] using h
    simp only [step, hd]

/-- Where the front waits and a call is queued, the step serves the oldest (R211; log entry 6). -/
theorem step_serves_call {s : State} {w : Wait} {c : HostCall} {rest : List HostCall} (hw : decode s.buf = .needMore w)
    (hc : s.calls = c :: rest) : step s = exec c.instr { s with calls := rest } := by
  simp only [step, hw, hc]

/-- Where the front waits and no call is queued, the step idles (R191). -/
theorem step_idles {s : State} {w : Wait} (hw : decode s.buf = .needMore w) (hc : s.calls = []) : step s = .next s := by
  simp only [step, hw, hc]

/-- Within its contract CHECKSUM answers its value and writes no state (R73). -/
theorem exec_checksum {bytes : List Byte} {n : Nat} (h : n ≤ bytes.length) (s : State) :
    exec (.checksum bytes n) s = .next { s with ret := some (.word (checksum bytes n)) } := by
  simp [exec, execChecksum, h, answer]

/-- Outside its contract CHECKSUM is refused (D11). -/
theorem exec_checksum_beyond {bytes : List Byte} {n : Nat} (h : bytes.length < n) (s : State) :
    exec (.checksum bytes n) s = .refused .checksumLengthOutsideContract := by
  simp [exec, execChecksum, Nat.not_le.mpr h]

/-- Everything CHECKSUM can do. -/
theorem exec_checksum_eq_next {bytes : List Byte} {n : Nat} {s t : State} :
    exec (.checksum bytes n) s = .next t ↔ n ≤ bytes.length ∧ t = { s with ret := some (.word (checksum bytes n)) } := by
  rcases Nat.lt_or_ge bytes.length n with h | h
  · simp [exec_checksum_beyond h, Nat.not_le.mpr h]
  · simp [exec_checksum h, h, eq_comm]

/-! #### Passes of the loop that lead from one state to another -/

/-- Passes of the loop, none of them a wait, lead from the first state to the second: each moves the front byte to the run (R156) or
emits the frame recognised at the front (R157). -/
inductive Passes : State → State → Prop where
  | refl (s : State) : Passes s s
  | noise {s t : State} {b : Byte} {rest : List Byte} (hb : s.buf = b :: rest)
      (hp : pass s = .next (.noiseByte, { s with buf := rest, noise := s.noise.push b }))
      (h : Passes { s with buf := rest, noise := s.noise.push b } t) : Passes s t
  | frame {s t : State} {len : Nat} {i : Instr} {ev : DecodedFrame} (hd : decode s.buf = .frame len i)
      (he : exec i s = .next (afterFrame len ev s)) (hbytes : Event.wireBytes (.frame ev) = s.buf.take len)
      (h : Passes (afterFrame len ev s) t) : Passes s t

/-- What the loop leaves is reached by its passes (R121). -/
theorem passes_of_drainAll {s t : State} : drainAll s = .next t → Passes s t := by
  induction s using drain_induction with
  | wait s w hw =>
    intro h
    obtain rfl : s = t := by simpa [drainAll_wait hw] using h
    exact .refl s
  | noise s b rest hb hp he ih => exact fun h => .noise hb hp (ih (he ▸ h))
  | frame s len ev r hb hl hp he ih =>
    intro h
    rcases pass_cases s with ⟨w, -, hp'⟩ | ⟨i, c, tail, -, -, -, -, hp'⟩ | ⟨n, i, ev', r', hd, -, hb', hl', -, hx, hp'⟩
    · simp [hp] at hp'
    · simp [hp] at hp'
    · have hsame : afterFrame len ev s = afterFrame n ev' s := by simpa [hp] using hp'
      refine .frame hd hx (by rw [hb', ← hl', List.take_left]) (hsame ▸ ih (he ▸ h))

/-- Before its passes a step has at most taken the oldest call from the queue, its bytes appended to `BUF` (R191, R211). -/
def Served (s m : State) : Prop :=
  m.noise = s.noise ∧ m.out = s.out ∧ m.buf ++ undelivered m = s.buf ++ undelivered s

/-- Everything a step that answers a next state can do: serve the oldest call where the front waits, then passes of the loop. -/
theorem served_passes_of_step {s t : State} (h : step s = .next t) : ∃ m, Served s m ∧ Passes m t := by
  rcases pass_cases s with ⟨w, hd, -⟩ | ⟨i, b, rest, hd, hb, -, he, hp⟩ | ⟨len, i, ev, r, hd, -, hb, hl, -, he, -⟩
  · cases hc : s.calls with
    | nil =>
      obtain rfl : s = t := by simpa [step_idles hd hc] using h
      exact ⟨s, ⟨rfl, rfl, rfl⟩, .refl s⟩
    | cons c rest =>
      rw [step_serves_call hd hc] at h
      cases c with
      | ingest chunk =>
        exact ⟨bufAppend chunk { s with calls := rest }, ⟨rfl, rfl, by simp [undelivered, hc, HostCall.bytes]⟩,
          passes_of_drainAll h⟩
      | checksum bytes n =>
        obtain ⟨-, rfl⟩ := exec_checksum_eq_next.mp h
        refine ⟨_, ?_, .refl _⟩
        exact ⟨rfl, rfl, by simp [undelivered, hc, HostCall.bytes]⟩
  · obtain rfl : _ = t := by simpa [step_runs_front (i := i) (by rw [hd, Front.instr?]), he] using h
    exact ⟨s, ⟨rfl, rfl, rfl⟩, .noise hb hp (.refl _)⟩
  · obtain rfl : afterFrame len ev s = t := by simpa [step_runs_front (i := i) (by rw [hd, Front.instr?]), he] using h
    exact ⟨s, ⟨rfl, rfl, rfl⟩, .frame hd he (by rw [hb, ← hl, List.take_left]) (.refl _)⟩

/-! #### What passes keep -/

section PassesKeep

variable {s t : State}

/-- No pass touches the queue of calls. -/
theorem Passes.calls_eq (h : Passes s t) : t.calls = s.calls := by
  induction h with
  | refl => rfl
  | noise _ _ _ ih => exact ih
  | frame _ _ _ _ ih => exact ih

/-- A pass moves bytes from `BUF` to the run, or from the run and `BUF` to the output, in their order (R134). -/
theorem Passes.accounted_eq (h : Passes s t) : accounted t = accounted s := by
  induction h with
  | refl => rfl
  | noise hb _ _ ih => rw [ih]; simp [accounted, hb]
  | @frame s t len i ev hd he hbytes h ih =>
    calc accounted t = accounted (afterFrame len ev s) := ih
      _ = s.out.flatMap Event.wireBytes ++ s.noise.bytes ++ (s.buf.take len ++ s.buf.drop len) := by
        simp [accounted, hbytes, Noise.bytes]
      _ = accounted s := by rw [List.take_append_drop, accounted]

/-- The output only grows at its end (R150). -/
theorem Passes.out_prefix (h : Passes s t) : s.out <+: t.out := by
  induction h with
  | refl => exact List.prefix_rfl
  | noise _ _ _ ih => exact ih
  | @frame s _ len _ ev _ _ _ _ ih =>
    have hframe : s.out <+: (afterFrame len ev s).out := by simp
    exact hframe.trans ih

end PassesKeep

/-! #### The form of the event stream -/

/-- Two well-formed event streams, one behind the other, are well-formed (R159). -/
theorem runsPaired_append {a b : List Event} (ha : runsPaired a = true) (hb : runsPaired b = true) :
    runsPaired (a ++ b) = true := by
  induction a using runsPaired.induct with
  | case1 => exact hb
  | case2 f rest ih => exact ih ha
  | case3 q f rest ih =>
    obtain ⟨hq, hrest⟩ : (!q.isEmpty) = true ∧ runsPaired rest = true := by simpa [runsPaired] using ha
    simpa [runsPaired, ih hrest] using hq
  | case4 => simp [runsPaired] at ha
  | case5 => simp [runsPaired] at ha

/-- What a frame appends is well-formed: the run it closes is not empty and stands directly before it (R157). -/
theorem runsPaired_closing {n : Noise} (hn : n.wf = true) (f : DecodedFrame) :
    runsPaired (n.closing ++ [.frame f]) = true := by
  cases n with
  | closed => rfl
  | opened q => simpa [Noise.closing, runsPaired, Noise.wf] using hn

/-- Passes keep an open run non-empty and every NoiseRun before a frame (R25 (b), R159). -/
theorem Passes.inv {s t : State} (h : Passes s t) (hs : s.Inv) : t.Inv := by
  induction h with
  | refl => exact hs
  | noise _ _ _ ih => exact ih ⟨Noise.wf_push _ _, hs.2⟩
  | @frame s t len i ev _ _ _ _ ih =>
    obtain ⟨hwf, hout⟩ := hs
    refine ih ⟨rfl, ?_⟩
    rw [afterFrame_out, List.append_assoc]
    exact runsPaired_append hout (runsPaired_closing hwf ev)

/-- Settles O42: serving a call leaves run and output alone, and the passes keep the invariant. -/
theorem stepKeepsRunInvariant : Obligations.StepKeepsRunInvariant := by
  intro s t ⟨hwf, hout⟩ hstep
  obtain ⟨m, ⟨hnoise, hmout, -⟩, hp⟩ := served_passes_of_step hstep
  exact hp.inv ⟨by rw [Memory.wf, hnoise]; exact hwf, by rw [hmout]; exact hout⟩

/-- Settles O41: serving a call moves its bytes from the queue to the end of `BUF`, and the passes keep the account. -/
theorem everyByteIsAccountedFor : Obligations.EveryByteIsAccountedFor := by
  refine ⟨fun s t hstep => ?_, fun s chunk t hingest => ?_⟩
  · obtain ⟨m, ⟨hnoise, hout, hbytes⟩, hp⟩ := served_passes_of_step hstep
    have hcalls : undelivered t = undelivered m := by rw [undelivered, hp.calls_eq, undelivered]
    calc accounted t ++ undelivered t
        = accounted m ++ undelivered m := by rw [hp.accounted_eq, hcalls]
      _ = s.out.flatMap Event.wireBytes ++ s.noise.bytes ++ (m.buf ++ undelivered m) := by
        simp [accounted, hnoise, hout]
      _ = accounted s ++ undelivered s := by simp [hbytes, accounted]
  · rw [(passes_of_drainAll hingest).accounted_eq]
    simp [accounted]

/-- Settles O44: serving a call leaves the output alone, and the passes only append to it. -/
theorem outputOnlyGrows : Obligations.OutputOnlyGrows := by
  intro s t hstep
  obtain ⟨m, ⟨-, hout, -⟩, hp⟩ := served_passes_of_step hstep
  obtain ⟨evs, hevs⟩ := hp.out_prefix
  exact ⟨evs, by rw [← hevs, hout]⟩

/-- From an open run, passes only extend it, or close it with a frame directly behind it (R158). -/
theorem Passes.extends_run {s t : State} (h : Passes s t) : ∀ q, s.noise = .opened q →
    ∃ more, (t.out = s.out ∧ t.noise = .opened (q ++ more)) ∨
      (∃ f evs, t.out = s.out ++ .noiseRun (q ++ more) :: .frame f :: evs) := by
  induction h with
  | refl => exact fun q hq => ⟨[], .inl ⟨rfl, by rw [hq, List.append_nil]⟩⟩
  | @noise s t b rest hb _ _ ih =>
    intro q hq
    obtain ⟨more, h⟩ := ih (q ++ [b]) (by rw [hq, Noise.push])
    exact ⟨b :: more, by simpa using h⟩
  | @frame s t len i ev _ _ _ h _ =>
    intro q hq
    obtain ⟨evs, hevs⟩ := h.out_prefix
    exact ⟨[], .inr ⟨ev, evs, by rw [← hevs]; simp [hq, Noise.closing]⟩⟩

/-- Settles O45: serving a call leaves run and output alone, and the passes extend the run or close it with a frame. -/
theorem openRunPersistsUntilAFrame : Obligations.OpenRunPersistsUntilAFrame := by
  intro s t q hq hstep
  obtain ⟨m, ⟨hnoise, hout, -⟩, hp⟩ := served_passes_of_step hstep
  rw [← hout]
  exact hp.extends_run q (hnoise.trans hq)

end Sys2Proof.Machine

/-! ### The loop and the bytes that come later: chunk boundaries, the verdict, the bound -/

namespace Sys2Proof.Machine

/-! #### More bytes keep the verdict (R135) -/

/-- A verdict that is not a wait stays as it is when bytes are added: each shape test it rests on is decided. -/
theorem decode_append {x : List Byte} (h : (decode x).waits = false) (y : List Byte) : decode (x ++ y) = decode x := by
  match x with
  | [] | [_] | [_, _] => simp [decode, Front.waits] at h
  | u :: fc :: z :: rest =>
    have happend (sh : Shape) (hd : tryShape sh (u :: fc :: z :: rest) ≠ .insufficient) :
        tryShape sh (u :: fc :: z :: (rest ++ y)) = tryShape sh (u :: fc :: z :: rest) :=
      tryShape_append hd y
    simp only [decode, List.cons_append] at h ⊢
    split
    · rename_i he
      simp only [he, if_true] at h
      rw [happend]
      intro hi
      simp [hi, Front.waits] at h
    · rename_i he
      simp only [he] at h
      cases hl : lookup fc with
      | none => rfl
      | some shapes =>
        obtain ⟨req, rsp⟩ := shapes
        simp only [hl] at h ⊢
        have hreq : tryShape req (u :: fc :: z :: rest) ≠ .insufficient := by
          intro hi
          simp [hi, Front.waits] at h
        rw [happend req hreq]
        cases ht : tryShape req (u :: fc :: z :: rest) with
        | insufficient => rfl
        | matched len i => rfl
        | mismatch =>
          have hrsp : tryShape rsp (u :: fc :: z :: rest) ≠ .insufficient := by
            intro hi
            simp [ht, hi, Front.waits] at h
          rw [happend rsp hrsp]

/-- Settles O39: by the shape tests the verdict rests on. -/
theorem moreBytesKeepTheVerdict : Obligations.MoreBytesKeepTheVerdict :=
  fun _ y h => decode_append h y

/-- A matched shape has at least five bytes, and they are there (R50). -/
theorem bounds_of_matched {b : List Byte} {sh : Shape} {len : Nat} {i : Instr} (ht : tryShape sh b = .matched len i) :
    5 ≤ len ∧ len ≤ b.length := by
  have hn := (tryShape_matched_iff.mp ht).1
  exact ⟨(need_bounds hn).1, need_le hn⟩

/-- A recognised frame has at least five bytes, and they are there (R50). -/
theorem bounds_of_decode_frame {b : List Byte} {len : Nat} {i : Instr} (hd : decode b = .frame len i) :
    5 ≤ len ∧ len ≤ b.length := by
  obtain ⟨fc, sh, -, -, ht⟩ := decode_frame hd
  exact bounds_of_matched ht

/-! #### Chunk boundaries (R133) -/

/-- A pass that is not a wait does the same with more bytes behind `BUF`, which it leaves there. -/
theorem pass_bufAppend {s t : State} {v : Verdict} (h : pass s = .next (v, t)) (hv : v ≠ .needMore) (y : List Byte) :
    pass (bufAppend y s) = .next (v, bufAppend y t) := by
  cases hd : decode s.buf with
  | needMore w =>
    obtain ⟨rfl, -⟩ : Verdict.needMore = v ∧ s = t := by simpa [pass_of_decode_needMore hd] using h
    exact absurd rfl hv
  | noiseByte i =>
    have hd' : decode (bufAppend y s).buf = .noiseByte i := by
      rw [bufAppend_buf, decode_append (by rw [hd, Front.waits]), hd]
    obtain ⟨-, h3⟩ := decode_noiseByte hd
    obtain ⟨b, rest, hb⟩ := List.exists_cons_of_length_pos (show 0 < s.buf.length by omega)
    obtain ⟨rfl, rfl⟩ : Verdict.noiseByte = v ∧ _ = t := by simpa [pass_of_decode_noiseByte hd hb] using h
    exact pass_of_decode_noiseByte hd' (by simp [hb])
  | frame len i =>
    have hd' : decode (bufAppend y s).buf = .frame len i := by
      rw [bufAppend_buf, decode_append (by rw [hd, Front.waits]), hd]
    obtain ⟨ev, he⟩ := emitEvent_of_decode_frame hd
    obtain ⟨-, hlen⟩ := bounds_of_decode_frame hd
    obtain ⟨rfl, rfl⟩ : Verdict.frame = v ∧ afterFrame len ev s = t := by simpa [pass_of_decode_frame hd (he s)] using h
    have hcomm : afterFrame len ev (bufAppend y s) = bufAppend y (afterFrame len ev s) := by
      apply State.eq_of_fields <;> simp [List.drop_append_of_le_length hlen]
    rw [pass_of_decode_frame hd' (he _), hcomm]

/-- The loop may run before more bytes are appended: run again behind them, it leaves the same state. -/
theorem drainAll_bufAppend (y : List Byte) (s : State) :
    drainAll (bufAppend y s) = andThen (drainAll s) fun t => drainAll (bufAppend y t) := by
  induction s using drain_induction with
  | wait s w hw => rw [drainAll_wait hw, andThen_next]
  | noise s b rest _ hp he ih => rw [drainAll_of_pass (pass_bufAppend hp (by decide) y) (by decide), he, ih]
  | frame s len ev r _ _ hp he ih => rw [drainAll_of_pass (pass_bufAppend hp (by decide) y) (by decide), he, ih]

/-- INGEST is the loop with the chunk appended (R120). -/
theorem exec_ingest (chunk : List Byte) (s : State) : exec (.ingest chunk) s = drainAll (bufAppend chunk s) := rfl

/-- A chunk in two parts is INGEST of the one, then of the other. -/
theorem exec_ingest_append (x y : List Byte) (s : State) :
    exec (.ingest (x ++ y)) s = andThen (exec (.ingest x) s) (exec (.ingest y)) := by
  have hparts : bufAppend (x ++ y) s = bufAppend y (bufAppend x s) := by simp [bufAppend]
  rw [exec_ingest, hparts, drainAll_bufAppend]
  rfl

/-- A run of INGEST calls does its first call, then the others. -/
theorem ingestAll_cons (c : List Byte) (rest : List (List Byte)) (s : State) :
    ingestAll (c :: rest) s = andThen (exec (.ingest c) s) (ingestAll rest) := rfl

/-- A non-empty run of INGEST calls is one INGEST of all its bytes. -/
theorem ingestAll_eq_flatten (c : List Byte) (rest : List (List Byte)) (s : State) :
    ingestAll (c :: rest) s = exec (.ingest (c :: rest).flatten) s := by
  induction rest generalizing c s with
  | nil =>
    rw [ingestAll_cons, List.flatten_singleton]
    cases exec (.ingest c) s <;> rfl
  | cons d rest ih => rw [ingestAll_cons, List.flatten_cons, exec_ingest_append, funext (ih d)]

/-- Settles O40: the run of calls is one INGEST, by induction over the chunks, and INGEST completes. -/
theorem chunkBoundariesDoNotMatter : Obligations.ChunkBoundariesDoNotMatter := by
  intro s chunks hne
  obtain ⟨c, rest, rfl⟩ := List.exists_cons_of_ne_nil hne
  obtain ⟨t, ht, -⟩ := ingestAppendsThenDrains s (c :: rest).flatten
  exact ⟨t, (ingestAll_eq_flatten c rest s).trans ht, ht⟩

/-! #### Where the block waits (R131, R132, R210) -/

/-- The block waits exactly at a NEED_MORE verdict. -/
theorem awaitingBytes_iff {s : State} : awaitingBytes s = true ↔ ∃ w, decode s.buf = .needMore w := by
  cases hd : decode s.buf <;> simp [awaitingBytes, hd, Front.waits]

/-- A wait is for the header, or for the length of the shape tried (R171). -/
theorem decode_needMore {b : List Byte} {w : Wait} (h : decode b = .needMore w) :
    b.length < 3 ∨ ∃ sh : Shape, need sh.layout b = none := by
  unfold decode at h
  split at h
  · split at h
    · split at h
      · exact .inr ⟨.exc, tryShape_insufficient_iff.mp ‹_›⟩
      · simp at h
      · simp at h
    · split at h
      · simp at h
      · rename_i req rsp _
        split at h
        · exact .inr ⟨req, tryShape_insufficient_iff.mp ‹_›⟩
        · simp at h
        · split at h
          · exact .inr ⟨rsp, tryShape_insufficient_iff.mp ‹_›⟩
          · simp at h
          · simp at h
  · rename_i hshort
    match b with
    | [] | [_] | [_, _] => exact .inl (by simp)
    | u :: fc :: x :: rest => exact absurd rfl (hshort u fc x rest)

/-- Where the block waits, `BUF` is shorter than the longest shape (R210). -/
theorem length_of_awaitingBytes {s : State} (h : awaitingBytes s = true) : s.buf.length ≤ 267 := by
  obtain ⟨w, hw⟩ := awaitingBytes_iff.mp h
  rcases decode_needMore hw with hshort | ⟨sh, hn⟩
  · omega
  · exact need_none_length hn

/-- INGEST ends where the block waits (R120, R131). -/
theorem awaitingBytes_of_ingest {s t : State} {chunk : List Byte} (h : exec (.ingest chunk) s = .next t) :
    awaitingBytes t = true := by
  obtain ⟨m, hm, -, hwait, -⟩ := ingestAppendsThenDrains s chunk
  obtain rfl : m = t := by simpa [hm] using h
  exact hwait

/-- Settles O35: the loop ends waiting. -/
theorem drainEndsWaiting : Obligations.DrainEndsWaiting :=
  drainAll_ends_waiting

/-- Settles O38: INGEST ends waiting, so a shape's length is not there. -/
theorem bufferBoundAfterIngest : Obligations.BufferBoundAfterIngest := by
  intro s chunk t ht
  have hlen := length_of_awaitingBytes (awaitingBytes_of_ingest ht)
  refine ⟨hlen, fun b => ?_⟩
  rw [List.length_append, List.length_singleton]
  omega

/-- Where the block waits the empty chunk changes nothing (R132). -/
theorem exec_ingest_nil {s : State} (h : awaitingBytes s = true) : exec (.ingest []) s = .next s := by
  obtain ⟨w, hw⟩ := awaitingBytes_iff.mp h
  have hs : bufAppend [] s = s := by simp [bufAppend]
  rw [exec_ingest, hs, drainAll_wait hw]

/-- The block waits at reset (R200). -/
theorem awaitingBytes_reset : awaitingBytes State.reset = true := rfl

/-- Settles O37: the block waits at reset and after every INGEST. -/
theorem emptyChunkChangesNothing : Obligations.EmptyChunkChangesNothing :=
  ⟨fun _ h => exec_ingest_nil h, exec_ingest_nil awaitingBytes_reset,
    fun _ _ _ ht => exec_ingest_nil (awaitingBytes_of_ingest ht)⟩

/-! #### The step and the queue of calls (R187, R211) -/

/-- Settles O47: the step's own branches. -/
theorem stepRunsTheDecodedInstruction : Obligations.StepRunsTheDecodedInstruction := by
  intro s
  exact ⟨fun len i hd => step_runs_front (by rw [hd, Front.instr?]), fun i hd => step_runs_front (by rw [hd, Front.instr?]),
    fun w chunk rest hw hc => step_serves_call hw hc, fun w bytes n rest hw hc => step_serves_call hw hc,
    fun w hw hc => step_idles hw hc⟩

/-- A call in its contract completes and leaves the queue behind it as it is (R170). -/
theorem exec_call_of_inContract {c : HostCall} (h : c.inContract = true) (s : State) :
    ∃ t, exec c.instr s = .next t ∧ t.calls = s.calls := by
  cases c with
  | ingest chunk =>
    obtain ⟨t, ht, -, -, -, -, hcalls⟩ := ingestAppendsThenDrains s chunk
    exact ⟨t, ht, hcalls⟩
  | checksum bytes n => exact ⟨_, exec_checksum (of_decide_eq_true h) s, rfl⟩

/-- Settles O43: at a wait the oldest call, in its contract, completes; a noise byte's and a frame's instruction always do. -/
theorem stepNeverStopsInContract : Obligations.StepNeverStopsInContract := by
  intro s hall
  rcases pass_cases s with ⟨w, hw, -⟩ | ⟨i, b, rest, hd, -, -, he, -⟩ | ⟨len, i, ev, r, hd, -, -, -, -, he, -⟩
  · cases hc : s.calls with
    | nil => exact ⟨s, step_idles hw hc, hall⟩
    | cons c rest =>
      obtain ⟨hfirst, hrest⟩ : c.inContract = true ∧ rest.all HostCall.inContract = true := by
        simpa [State.callsInContract, hc] using hall
      obtain ⟨t, ht, hcalls⟩ := exec_call_of_inContract hfirst { s with calls := rest }
      exact ⟨t, (step_serves_call hw hc).trans ht, by rw [State.callsInContract, hcalls]; exact hrest⟩
  · exact ⟨_, (step_runs_front (by rw [hd, Front.instr?])).trans he, hall⟩
  · exact ⟨_, (step_runs_front (by rw [hd, Front.instr?])).trans he, hall⟩

/-- The loop does the same with reads queued behind it, which it leaves queued. -/
theorem drainAll_deliver {s t : State} (reads : List (List Byte)) (h : drainAll s = .next t) :
    drainAll (s.deliver reads) = .next (t.deliver reads) := by
  obtain ⟨m, hm, -, hcrc, hret, hcalls⟩ := drainAll_ends_waiting s
  obtain rfl : m = t := by simpa [hm] using h
  obtain ⟨m', hm', -, hcrc', hret', hcalls'⟩ := drainAll_ends_waiting (s.deliver reads)
  obtain ⟨hb, hn, evs, ho, ho'⟩ := drainAll_sameEffect s (s.deliver reads) m rfl rfl hm hm'
  have heq : m' = m.deliver reads := by
    apply State.eq_of_fields
    · exact hb.symm
    · exact hn.symm
    · exact ho'.trans ho.symm
    · exact hcrc'.trans hcrc.symm
    · exact hret'.trans hret.symm
    · rw [hcalls', State.deliver, State.deliver, hcalls]
  rw [hm', heq]

/-- A step that answers a next state is the first of the machine's run. -/
theorem core_run_succ {s t : State} {k : Nat} (h : step s = .next t) :
    Host.Core.run core (k + 1) s = Host.Core.run core k t := by
  have hcore : core.step s = .next t := h
  simp only [Host.Core.run, hcore]

/-- Settles O52: by induction over the reads; a step serves the first, ends waiting, and leaves the others queued. -/
theorem driverReadsAreIngested : Obligations.DriverReadsAreIngested := by
  intro s reads
  induction reads generalizing s with
  | nil =>
    intro _ _
    have hs : s.deliver [] = s := by simp [State.deliver]
    rw [hs]
    rfl
  | cons read rest ih =>
    intro hwait hcalls
    obtain ⟨w, hw⟩ := awaitingBytes_iff.mp hwait
    obtain ⟨t, ht, -, htwait, -, -, htcalls⟩ := ingestAppendsThenDrains s read
    have hqueue : { s.deliver (read :: rest) with calls := rest.map driverCall } = s.deliver rest := by
      simp [State.deliver, hcalls]
    have hhead : (s.deliver (read :: rest)).calls = driverCall read :: rest.map driverCall := by
      simp [State.deliver, hcalls]
    have hstep : step (s.deliver (read :: rest)) = .next (t.deliver rest) := by
      rw [step_serves_call (s := s.deliver (read :: rest)) hw hhead, hqueue]
      exact drainAll_deliver rest ht
    rw [List.length_cons, core_run_succ hstep, ih t htwait (htcalls.trans hcalls), ingestAll_cons, ht, andThen_next]

end Sys2Proof.Machine

/-! ### Decoder and encoder: the round trips, the event of a frame, the wire forms left -/

namespace Sys2Proof.Machine

/-! #### Decode after encode -/

/-- A frame instruction's body holds, at offset 1, a code that selects its shape (R51, R53). -/
theorem code_of_body {i : Instr} {sh : Shape} {body : List Byte} (hs : i.shape? = some sh) (hw : i.wf = true)
    (hb : bodyOf i = some body) : ∃ fc, body[1]? = some fc ∧ sh.selectedBy fc = true := by
  cases i <;> simp only [Instr.shape?, Option.some.injEq, reduceCtorEq] at hs <;> subst hs <;>
    simp only [bodyOf, Option.some.injEq] at hb <;> subst hb
  case exc u f c => exact ⟨f, rfl, hw⟩
  all_goals exact ⟨_, rfl, rfl⟩

/-- A shape but the exception shape is the request or the response of the code that selects it (R90). -/
theorem lookup_of_selectedBy {sh : Shape} {fc : Byte} (hf : sh.selectedBy fc = true) (hx : sh ≠ .exc) :
    ∃ req rsp, lookup fc = some (req, rsp) ∧ (sh = req ∨ sh = rsp ∧ sh.requestOf = some req) := by
  cases sh with
  | exc => exact absurd rfl hx
  | fc01Req | fc02Req | fc03Req | fc04Req | fc05Req | fc06Req | fc15Req | fc16Req | fc23Req =>
    obtain rfl := beq_iff_eq.mp hf
    exact ⟨_, _, rfl, .inl rfl⟩
  | fc01Rsp | fc02Rsp | fc03Rsp | fc04Rsp | fc05Rsp | fc06Rsp | fc15Rsp | fc16Rsp | fc23Rsp =>
    obtain rfl := beq_iff_eq.mp hf
    exact ⟨_, _, rfl, .inr ⟨rfl, rfl⟩⟩

/-- With bit 7 set a matched exception shape is the verdict (R124). -/
theorem decode_of_exception_matched {b : List Byte} {fc : Byte} {len : Nat} {i : Instr} (h1 : b[1]? = some fc)
    (h3 : 3 ≤ b.length) (he : isException fc = true) (ht : tryShape .exc b = .matched len i) : decode b = .frame len i := by
  obtain ⟨u, x, rest, rfl⟩ := header_of_getElem? h1 h3
  simp [decode, he, ht]

/-- A matched shape that the code selects is the verdict, where the request shape tried before it mismatches (R126, R127). -/
theorem decode_of_matched {b : List Byte} {fc : Byte} {sh : Shape} {len : Nat} {i : Instr} (h1 : b[1]? = some fc)
    (hf : sh.selectedBy fc = true) (ht : tryShape sh b = .matched len i)
    (hq : ∀ req, sh.requestOf = some req → tryShape req b = .mismatch) : decode b = .frame len i := by
  obtain ⟨h5, hlen⟩ := bounds_of_matched ht
  have h3 : 3 ≤ b.length := by omega
  by_cases hx : sh = .exc
  · subst hx
    exact decode_of_exception_matched h1 h3 hf ht
  · obtain ⟨req, rsp, hl, rfl | ⟨rfl, hreq⟩⟩ := lookup_of_selectedBy hf hx
    · exact decode_of_request_matched h1 h3 hl ht
    · exact decode_of_response_matched h1 h3 hl (hq req hreq) ht

/-- Settles O49: the wire bytes match the instruction's own shape, which the code at offset 1 selects. -/
theorem decodeOfEncodeIsTheInstruction : Obligations.DecodeOfEncodeIsTheInstruction := by
  intro i sh bs rest hw hs hbs hq
  obtain ⟨body, hb, rfl⟩ := Option.map_eq_some_iff.mp hbs
  obtain ⟨fc, hfc, hf⟩ := code_of_body hs hw hb
  have h1 : (frame body ++ rest)[1]? = some fc := by
    have hlt : 1 < body.length := (List.getElem?_eq_some_iff.mp hfc).1
    rw [frame, List.append_assoc, List.getElem?_append_left hlt, hfc]
  rw [frame_length]
  exact decode_of_matched h1 hf (tryShape_frame hs hw hb rest) hq

/-! #### Encode after decode, and the event of a frame (R160) -/

/-- Settles O50: the matched shape says that the bytes begin with the instruction's wire bytes. -/
theorem encodeOfDecodeIsTheBytes : Obligations.EncodeOfDecodeIsTheBytes := by
  intro b len i hd
  obtain ⟨fc, sh, h1, hf, ht⟩ := decode_frame hd
  obtain ⟨-, hw, body, r, hbody, rfl, rfl⟩ := tryShape_matched h1 hf ht
  refine ⟨hw, by simp, ?_⟩
  rw [encode, hbody, Option.map_some, ← frame_length, List.take_left]

/-- Settles O51: the matched shape's event, whose bytes are there. -/
theorem eventDeterminesItsBytes : Obligations.EventDeterminesItsBytes := by
  intro s len i hd
  obtain ⟨fc, sh, h1, hf, ht⟩ := decode_frame hd
  obtain ⟨ev, he, hwf, hbytes, -⟩ := event_of_matched h1 hf ht
  obtain ⟨-, hlen⟩ := bounds_of_matched ht
  exact ⟨ev, (he s).trans (emitEvent_of_le hlen), hwf, hbytes⟩

/-! #### Code 6 (R112 (a)) -/

/-- The request row of code 6 (R102). -/
theorem fc06Req_row (u : Byte) (x y : U16) :
    FrameRow (.fc06Req u x y) .fc06Req 8 (bodyTwo u 0x06 x y) (.request u 0x06 (.addrData x y)) :=
  ⟨rfl, rfl, rfl, rfl, fun _ => rfl⟩

/-- The two shapes of code 6 have one layout, so the request shape matches wherever the response shape does. -/
theorem fc06Req_matched_of_fc06Rsp_matched {b : List Byte} {len : Nat} {i : Instr} (h : tryShape .fc06Rsp b = .matched len i) :
    ∃ j, tryShape .fc06Req b = .matched len j := by
  obtain ⟨hn, hc, -⟩ := tryShape_matched_iff.mp h
  exact tryShape_matched_of_need (sh := .fc06Req) hn hc

/-- A frame verdict at function code 6 is the request shape's (R112 (a)). -/
theorem fc06Req_matched_of_decode_frame {b : List Byte} {len : Nat} {i : Instr} (hd : decode b = .frame len i)
    (h1 : b[1]? = some 0x06) : tryShape .fc06Req b = .matched len i := by
  obtain ⟨fc, sh, h1', hf, ht⟩ := decode_frame hd
  obtain rfl : 0x06 = fc := Option.some.inj (h1.symm.trans h1')
  obtain ⟨h5, hlen⟩ := bounds_of_matched ht
  have h3 : 3 ≤ b.length := by omega
  have hl : lookup 0x06 = some (.fc06Req, .fc06Rsp) := rfl
  obtain ⟨req, rsp, hl', hsh⟩ := lookup_of_selectedBy hf (by rintro rfl; exact absurd hf (by decide))
  obtain ⟨rfl, rfl⟩ : Shape.fc06Req = req ∧ Shape.fc06Rsp = rsp := Prod.mk.inj (Option.some.inj (hl.symm.trans hl'))
  rcases hsh with rfl | ⟨rfl, -⟩
  · exact ht
  · obtain ⟨j, hj⟩ := fc06Req_matched_of_fc06Rsp_matched ht
    obtain ⟨-, rfl⟩ : len = len ∧ j = i := by simpa [hd] using (decode_of_request_matched h1 h3 hl hj).symm
    exact hj

/-- No bytes decode to FC06_RSP (R112 (a)). -/
theorem decode_ne_fc06Rsp (b : List Byte) (len : Nat) (u : Byte) (x y : U16) :
    decode b ≠ .frame len (.fc06Rsp u x y) := by
  intro hd
  obtain ⟨fc, sh, h1, hf, ht⟩ := decode_frame hd
  obtain rfl : Shape.fc06Rsp = sh := Option.some.inj (tryShape_matched h1 hf ht).1
  obtain rfl := beq_iff_eq.mp hf
  have hreq := fc06Req_matched_of_decode_frame hd h1
  simpa [Instr.shape?] using (tryShape_matched h1 (by decide) hreq).1

/-- The event of a recognised frame is no Response with function code 6 (R112 (a)). -/
theorem event_ne_fc06_response {s : State} {len : Nat} {i : Instr} {ev : DecodedFrame} (hd : decode s.buf = .frame len i)
    (he : exec i s = .next (afterFrame len ev s)) (hbytes : Event.wireBytes (.frame ev) = s.buf.take len)
    (u : Byte) (fields : Fields) : ev ≠ .response u 0x06 fields := by
  rintro rfl
  obtain ⟨fc, sh, h1, -⟩ := decode_frame hd
  obtain ⟨h5, hlen⟩ := bounds_of_decode_frame hd
  obtain ⟨v, x, rest, hb⟩ := header_of_getElem? h1 (by omega)
  obtain ⟨rfl, rfl⟩ := header_of_frame_eq_take h5 (hb ▸ hbytes)
  have hreq := fc06Req_matched_of_decode_frame hd (by simp [hb])
  obtain ⟨fields', -, -, hreqev⟩ := request_of_matched hb (by decide) rfl (by decide) hreq
  have hsame := (emitEvent_eq_next.mp ((hreqev s).symm.trans he)).2
  simpa using congrArg State.out hsame

/-- Passes emit no Response with function code 6 (R112 (a)). -/
theorem Passes.fc06_response_mem {s t : State} (h : Passes s t) {u : Byte} {fields : Fields}
    (hmem : Event.frame (.response u 0x06 fields) ∈ t.out) : Event.frame (.response u 0x06 fields) ∈ s.out := by
  induction h with
  | refl => exact hmem
  | noise _ _ _ ih => exact ih hmem
  | @frame s t len i ev hd he hbytes _ ih =>
    have hin := ih hmem
    rw [afterFrame_out, List.mem_append, List.mem_append, List.mem_singleton, Event.frame.injEq] at hin
    obtain (hout | hclosing) | heq := hin
    · exact hout
    · cases hn : s.noise <;> simp [hn, Noise.closing] at hclosing
    · exact absurd heq.symm (event_ne_fc06_response hd he hbytes u fields)

/-- Settles O32: the request shape matches wherever the response shape does, so neither the decoder nor a pass gives the Response. -/
theorem codeSixIsNeverAResponse : Obligations.CodeSixIsNeverAResponse := by
  refine ⟨decode_ne_fc06Rsp, fun s t u fields hstep hmem => ?_⟩
  obtain ⟨m, ⟨-, hout, -⟩, hp⟩ := served_passes_of_step hstep
  exact hout ▸ hp.fc06_response_mem hmem

/-- Settles O28: the request row when the checksum fits; else both shapes, of one length, mismatch. -/
theorem singleRegisterWriteOnTheWire : Obligations.SingleRegisterWriteOnTheWire := by
  intro s u a1 a0 d1 d0 lo hi rest
  have hl : lookup 0x06 = some (.fc06Req, .fc06Rsp) := rfl
  refine ⟨fun hb => ⟨fun hfit => ?_, fun hfit => ?_⟩, fun h1 h3 h8 => decode_of_short_of_eight h1 h3 hl rfl h8⟩
  · refine step_of_request_row (fc06Req_row u (pack a1 a0) (pack d1 d0)) hl rfl (rest := rest) ?_
    rw [hb, bodyTwo_pack]
    exact append_field_eq_frame (body := [u, 0x06, a1, a0, d1, d0]) hfit
  · have hmis (sh : Shape) (hsh : sh.layout = .fixed 8) : tryShape sh s.buf = .mismatch :=
      tryShape_fixed_mismatch_of_body (body := [u, 0x06, a1, a0, d1, d0]) hsh hb hfit
    exact step_of_decode_noiseByte
      (decode_of_both_mismatch (by simp [hb]) (by simp [hb]) hl (hmis .fc06Req rfl) (hmis .fc06Rsp rfl)) hb

/-! #### The responses of codes 15, 16 and 23, and the three-byte read response -/

/-- The response rows of codes 15 and 16, each tried after a counted request (R105, R107). -/
theorem writeResponse_row {fc : Byte} (hfc : fc ∈ ([0x0F, 0x10] : List Byte)) (u : Byte) (x y : U16) :
    ∃ req rsp i, lookup fc = some (req, rsp) ∧ req.layout = .counted 6 7 ∧
      FrameRow i rsp 8 (bodyTwo u fc x y) (.response u fc (.addrQty x y)) := by
  simp only [List.mem_cons, List.not_mem_nil, or_false] at hfc
  rcases hfc with rfl | rfl
  · exact ⟨_, _, .fc15Rsp u x y, rfl, rfl, rfl, rfl, rfl, rfl, fun _ => rfl⟩
  · exact ⟨_, _, .fc16Rsp u x y, rfl, rfl, rfl, rfl, rfl, rfl, fun _ => rfl⟩

/-- The response row of code 23 (R109). -/
theorem fc23Rsp_row {c : Byte} {d : List Byte} (hd : d.length = c.toNat) (u : Byte) :
    FrameRow (.fc23Rsp u c d) .fc23Rsp (5 + c.toNat) (bodyV3 u 0x17 c d) (.response u 0x17 (.payload c d)) :=
  ⟨rfl, beq_iff_eq.mpr hd, rfl, by simp [bodyV3]; omega, fun _ => rfl⟩

/-- A counted shape that is there mismatches when the checksum test fails. -/
theorem tryShape_counted_mismatch {sh : Shape} {b : List Byte} {off pre : Nat} {n : Byte}
    (hsh : sh.layout = .counted off pre) (hn : b[off]? = some n) (hlen : pre + 2 + n.toNat ≤ b.length)
    (hc : crcMatches b (pre + 2 + n.toNat) = false) : tryShape sh b = .mismatch := by
  have htotal : pre + n.toNat + csumBytes = pre + 2 + n.toNat := by simp only [csumBytes]; omega
  exact tryShape_mismatch_iff.mpr ⟨pre + 2 + n.toNat, by simp [hsh, need, hn, htotal, hlen], hc⟩

/-- Settles O31: each response row at its wire bytes, the counted request shape having mismatched. -/
theorem writeResponsesOnTheWire : Obligations.WriteResponsesOnTheWire := by
  intro s u c n x y d rest
  refine ⟨fun fc hfc hb hn hlen hc => ?_, fun hd hb hn hlen hc => ?_⟩
  · obtain ⟨req, rsp, i, hl, hq, row⟩ := writeResponse_row hfc u x y
    exact step_of_response_row row hl rfl hb (tryShape_counted_mismatch hq hn hlen hc)
  · refine ⟨by simp [hb]; omega, ?_⟩
    exact step_of_response_row (fc23Rsp_row hd u) (fc := 0x17) rfl rfl hb
      (tryShape_counted_mismatch (off := 10) (pre := 11) rfl hn hlen hc)

/-- Settles O33: the eight bytes are the wire bytes of the request row, and the request shape is tried first. -/
theorem threeByteReadResponseIsARequest : Obligations.ThreeByteReadResponseIsARequest := by
  intro s u fc d0 d1 d2 rest hfc hb
  obtain ⟨req, rsp, i, hl, -, row⟩ := readRequest_row hfc u (pack 3 d0) (pack d1 d2)
  exact step_of_request_row row hl rfl (by rw [hb, bodyTwo_pack])

/-! #### Past the end of `BUF` (R32, I10) -/

/-- An instruction with a body is a frame of some shape (R61). -/
theorem shape_of_bodyOf {i : Instr} {body : List Byte} (hb : bodyOf i = some body) : ∃ sh, i.shape? = some sh := by
  cases i <;> simp [bodyOf, Instr.shape?] at hb ⊢

/-- Settles O18: a frame instruction emits its whole length, and neither that nor a noise step is there. -/
theorem pastTheEndOfBufStops : Obligations.PastTheEndOfBufStops := by
  intro s i body len ev
  refine ⟨fun hw hb hlen => ?_, fun hlen => ?_, fun hempty => ?_⟩
  · obtain ⟨sh, hs⟩ := shape_of_bodyOf hb
    obtain ⟨ev', he, -⟩ := exec_frame hs hw hb
    rw [he, emitEvent_of_lt hlen]
  · rw [exec_emitFrame, emitEvent_of_lt hlen]
  · rw [exec_noiseStep, noiseByte, hempty]

end Sys2Proof.Machine

/-! ### The checksum engine: the update's two forms, CHECKSUM and its residue -/

namespace Sys2Proof.Machine

/-! #### One byte's update (R75, R76) -/

/-- CRC_UPDATE writes the scratch alone (R76). -/
@[simp] theorem exec_crcUpdate (b : Byte) (s : State) : exec (.crcUpdate b) s = .next { s with crc := crcByte s.crc b } := rfl

/-- The update by its two table entries (R76, D4). -/
theorem crcByte_eq (c : U16) (b : Byte) :
    crcByte c b = pack (tabHi (lowByte c ^^^ b)) (highByte c ^^^ tabLo (lowByte c ^^^ b)) := rfl

/-- The update's new low byte (R76, D4). -/
@[simp] theorem lowByte_crcByte (c : U16) (b : Byte) :
    lowByte (crcByte c b) = highByte c ^^^ tabLo (lowByte c ^^^ b) :=
  lowByte_pack _ _

/-- The update's new high byte (R76, D4). -/
@[simp] theorem highByte_crcByte (c : U16) (b : Byte) : highByte (crcByte c b) = tabHi (lowByte c ^^^ b) :=
  highByte_pack _ _

/-- Settles O4: the two bytes of the update, and the scratch alone written. -/
theorem crcUpdateTakesOneByte : Obligations.CrcUpdateTakesOneByte :=
  fun s b => ⟨_, exec_crcUpdate b s, lowByte_crcByte s.crc b, highByte_crcByte s.crc b, rfl⟩

/-- Settles O9: the 256 entries, evaluated. -/
theorem tablesFollowGeneratingRule : Obligations.TablesFollowGeneratingRule := by
  unfold Obligations.TablesFollowGeneratingRule
  decide +kernel

/-- A value with its low byte changed by the high byte of another is that value combined with the other's shift. -/
theorem pack_xor_highByte (c : U16) (h l : Byte) : pack h (highByte c ^^^ l) = (c >>> 8) ^^^ pack h l := by
  apply BitVec.eq_of_getLsbD_eq
  intro i hi
  simp only [BitVec.getLsbD_xor, BitVec.getLsbD_ushiftRight, pack_getLsbD]
  split
  · rename_i hlow
    simp [highByte, hlow]
  · have hout : c.getLsbD (8 + i) = false := BitVec.getLsbD_of_ge _ _ (by omega)
    simp [hout]

/-- Settles O10: the table entries packed are the generating rule's value, and the old high byte is the shifted scratch. -/
theorem crcUpdateShiftForm : Obligations.CrcUpdateShiftForm := by
  intro c b
  calc crcByte c b
      = pack (tabHi (lowByte c ^^^ b)) (highByte c ^^^ tabLo (lowByte c ^^^ b)) := crcByte_eq c b
    _ = (c >>> 8) ^^^ pack (tabHi (lowByte c ^^^ b)) (tabLo (lowByte c ^^^ b)) := pack_xor_highByte c _ _
    _ = (c >>> 8) ^^^ t16 (lowByte c ^^^ b) := by rw [tablesFollowGeneratingRule]

/-! #### CHECKSUM (R73, R79, R80, D11) -/

/-- A run of CRC_UPDATE is the scratch folded over the bytes, front first. -/
theorem execAll_crcUpdate (bytes : List Byte) (s : State) :
    execAll (bytes.map Instr.crcUpdate) s = .next { s with crc := bytes.foldl crcByte s.crc } := by
  induction bytes generalizing s with
  | nil => rfl
  | cons b rest ih => rw [List.map_cons, execAll, exec_crcUpdate, andThen_next, ih, List.foldl_cons]

/-- Settles O5: the scratch after the run is the fold that CHECKSUM answers. -/
theorem checksumIsInitThenUpdates : Obligations.ChecksumIsInitThenUpdates := by
  intro s bytes n hn
  refine ⟨{ s with crc := checksum bytes n }, ?_, exec_checksum hn s, ?_⟩
  · rw [execAll, exec_crcInit, andThen_next, execAll_crcUpdate]
    rfl
  · rintro rfl
    rfl

/-- Settles O6: the contract is the operation's test. -/
theorem checksumBeyondBytesRefused : Obligations.ChecksumBeyondBytesRefused :=
  fun s _ _ hn => exec_checksum_beyond hn s

/-- The checksum over a whole sequence is the fold over it. -/
theorem checksum_of_length {bytes : List Byte} {n : Nat} (h : bytes.length = n) :
    checksum bytes n = bytes.foldl crcByte crcStart := by
  rw [checksum, ← h, List.take_length]

/-- Settles O7: the fold over one byte more. -/
theorem checksumIsIncremental : Obligations.ChecksumIsIncremental := by
  intro s b
  rw [checksum_of_length (by simp), checksum_of_length rfl, List.foldl_concat]

/-- The first entry of the low table (R74). -/
@[simp] theorem tabLo_zero : tabLo 0#8 = 0#8 := by decide

/-- The first entry of the high table (R74). -/
@[simp] theorem tabHi_zero : tabHi 0#8 = 0#8 := by decide

/-- A value's own two bytes, low byte first, update it to 0: each meets the table entry of index 0. -/
theorem crcByte_own_bytes (c : U16) : crcByte (crcByte c (lowByte c)) (highByte c) = 0 := by
  have hlow : lowByte (crcByte c (lowByte c)) = highByte c := by simp
  have hhigh : highByte (crcByte c (lowByte c)) = 0#8 := by simp
  calc crcByte (crcByte c (lowByte c)) (highByte c)
      = pack (tabHi (highByte c ^^^ highByte c)) (0#8 ^^^ tabLo (highByte c ^^^ highByte c)) := by
        rw [crcByte_eq (crcByte c (lowByte c)), hlow, hhigh]
    _ = pack 0#8 0#8 := by simp
    _ = 0 := rfl

/-- Settles O8: the fold over the body, then over its own two bytes. -/
theorem checksumResidueIsZero : Obligations.ChecksumResidueIsZero := by
  intro body
  rw [checksum_of_length (frame_length body), frame, le16Bytes, List.foldl_append, ← checksum_of_length rfl]
  exact crcByte_own_bytes (checksum body body.length)

/-- Settles O12: the two tests before the comparison, one for each side of the operand range. -/
theorem crcCheckOutsideContractStops : Obligations.CrcCheckOutsideContractStops := by
  intro s len
  constructor
  · intro hlow
    simp [exec, execCrcCheck, hlow]
  · intro h4 hlen
    simp [exec, execCrcCheck, Nat.not_lt.mpr h4, hlen]

end Sys2Proof.Machine

/-! ### Reset, the frame rows, written-out words, the host's side -/

namespace Sys2Proof.Machine

/-- Settles O1: the fields of the reset state. -/
theorem resetIsEmptyAndClosed : Obligations.ResetIsEmptyAndClosed :=
  ⟨reset_buf, reset_noise, reset_out, rfl⟩

/-- Settles O2: the reset state's run, output, queue and buffer are empty, and it waits. -/
theorem resetMeetsInvariants : Obligations.ResetMeetsInvariants :=
  ⟨⟨reset_memory_wf, rfl⟩, rfl, rfl, rfl, awaitingBytes_reset⟩

/-- Settles O13: each request row is the emission of its event, and the bytes are there. -/
theorem requestRowsEmitTheirEvent : Obligations.RequestRowsEmitTheirEvent := by
  intro s u c x y z w d
  refine ⟨fun h => ?_, fun h => ?_, fun h => ?_⟩
  · exact ⟨emitEvent_of_le h, emitEvent_of_le h, emitEvent_of_le h, emitEvent_of_le h, emitEvent_of_le h, emitEvent_of_le h⟩
  · exact ⟨emitEvent_of_le h, emitEvent_of_le h⟩
  · exact emitEvent_of_le h

/-- Settles O14: each response row is the emission of its event, and the bytes are there. -/
theorem responseRowsEmitTheirEvent : Obligations.ResponseRowsEmitTheirEvent := by
  intro s u c x y d
  refine ⟨fun h => ?_, fun h => ?_, fun h => ?_⟩
  · exact ⟨emitEvent_of_le h, emitEvent_of_le h, emitEvent_of_le h, emitEvent_of_le h, emitEvent_of_le h⟩
  · exact emitEvent_of_le h
  · exact ⟨emitEvent_of_le h, emitEvent_of_le h, emitEvent_of_le h⟩

/-- Settles O15: the exception row is the emission of its event. -/
theorem exceptionRowEmitsItsEvent : Obligations.ExceptionRowEmitsItsEvent :=
  fun _ _ _ _ h => emitEvent_of_le h

/-- Settles O48: the five words, evaluated. -/
theorem writtenOutWordsDecode : Obligations.WrittenOutWordsDecode := by
  unfold Obligations.WrittenOutWordsDecode
  decide +kernel

/-- Settles O54: the fleet with one state replaced by what its step answers. -/
theorem instancesAreIndependent : Obligations.InstancesAreIndependent := by
  intro k fleet fleet' h
  unfold stepInstance at h
  split at h
  · simp at h
  · rename_i s hs
    obtain ⟨t, ht, hset⟩ := andThen_eq_next.mp h
    obtain rfl := Host.Outcome.next.inj hset
    have hk : k < fleet.length := (List.getElem?_eq_some_iff.mp hs).1
    exact ⟨List.length_set, fun j hj => List.getElem?_set_ne hj.symm, s, t, hs, ht, List.getElem?_set_self hk⟩

/-! #### The silence timeout (R186, D16) -/

/-- Below 19200 the timeout is `33 / B` and no other number. -/
theorem isSilenceTimeout_of_lt {b t : ℝ} (h0 : 0 < b) (h : b < 19200) : IsSilenceTimeout b t ↔ t = 33 / b := by
  simp [IsSilenceTimeout, h0, h, not_le.mpr h]

/-- From 19200 on the timeout is 0.00175 and no other number. -/
theorem isSilenceTimeout_of_le {b t : ℝ} (h : 19200 ≤ b) : IsSilenceTimeout b t ↔ t = 7 / 4000 := by
  have h0 : 0 < b := by linarith
  simp [IsSilenceTimeout, h0, h, not_lt.mpr h]

/-- Outside the contract there is no timeout. -/
theorem not_isSilenceTimeout {b t : ℝ} (h : b ≤ 0) : ¬ IsSilenceTimeout b t :=
  fun ht => absurd ht.1 (not_lt.mpr h)

/-- Settles O53: the three ranges of the rate. -/
theorem silenceTimeoutFormula : Obligations.SilenceTimeoutFormula := by
  intro b t
  refine ⟨isSilenceTimeout_of_lt, fun h => ?_, not_isSilenceTimeout⟩
  rw [isSilenceTimeout_of_le h, show (0.00175 : ℝ) = 7 / 4000 by norm_num]

/-- The evaluated timeout below 19200. -/
theorem silenceTimeout_of_lt {b : ℚ} (h0 : 0 < b) (h : b < 19200) : silenceTimeout b = some (33 / b) := by
  simp [silenceTimeout, not_le.mpr h0, h]

/-- The evaluated timeout from 19200 on. -/
theorem silenceTimeout_of_le {b : ℚ} (h : 19200 ≤ b) : silenceTimeout b = some (7 / 4000) := by
  have h0 : 0 < b := by linarith
  simp [silenceTimeout, not_le.mpr h0, not_lt.mpr h]

/-- The evaluated timeout outside the contract. -/
theorem silenceTimeout_of_nonpos {b : ℚ} (h : b ≤ 0) : silenceTimeout b = none := if_pos h

/-- At a rational rate the evaluated timeout is that of the formula over reals. -/
theorem silenceTimeout_eq_some_iff (b t : ℚ) : silenceTimeout b = some t ↔ IsSilenceTimeout (b : ℝ) (t : ℝ) := by
  rcases le_or_gt b 0 with h0 | h0
  · simp [silenceTimeout_of_nonpos h0, not_isSilenceTimeout (show (b : ℝ) ≤ 0 by exact_mod_cast h0)]
  · rcases lt_or_ge b 19200 with h | h
    · rw [silenceTimeout_of_lt h0 h, isSilenceTimeout_of_lt (by exact_mod_cast h0) (by exact_mod_cast h),
        Option.some.injEq, eq_comm, ← Rat.cast_inj (α := ℝ)]
      push_cast
      rfl
    · rw [silenceTimeout_of_le h, isSilenceTimeout_of_le (by exact_mod_cast h), Option.some.injEq, eq_comm,
        ← Rat.cast_inj (α := ℝ)]
      push_cast
      rfl

/-- Settles O55: the values on the three ranges, and the agreement on each. -/
theorem evaluatedSilenceTimeoutAgrees : Obligations.EvaluatedSilenceTimeoutAgrees := by
  refine ⟨fun b => ⟨silenceTimeout_of_lt, fun h => ?_, silenceTimeout_of_nonpos⟩, silenceTimeout_eq_some_iff⟩
  rw [silenceTimeout_of_le h, show (0.00175 : ℚ) = 7 / 4000 by norm_num]

end Sys2Proof.Machine
